-- ==== Sys2Proof/Word.lean ====
section
/-! DEFINITION. The word types of the block: the widths of 00_scope.md rule R6. -/

namespace Sys2Proof

/-- One serial byte, one accumulator cell, one colour channel (R6, `BYTE_W`). -/
abbrev Byte := BitVec 8

/-- A Declared Length, `acc_len`, `frame_len`, `pix_idx` (R6, `LEN_W` and `PIX_IDX_W`). -/
abbrev Len := BitVec 16

/-- A colour word at the pixel port (R6, `COLOR_W`). -/
abbrev Color := BitVec 24

/-- The word the out-of-scope sink adapter hands to the LED peripheral (R147). -/
abbrev SinkWord := BitVec 32

/-- The decode vector (R75). -/
abbrev DecodeVector := BitVec 8

end Sys2Proof
end

