-- ==== Sys2Proof/Config.lean ====
section
/-! DEFINITION. What this hardware fixes (00_scope.md rule R6) and the free values: constants
without a body for what the spec leaves open, of which no proof can see the value. -/

namespace Sys2Proof.Config

/-- R6 `BYTE_W`. -/
abbrev byteW : Nat := 8
/-- R6 `LEN_W`. -/
abbrev lenW : Nat := 16
/-- R6 `MAX_LEN`, the largest Declared Length. -/
abbrev maxLen : Nat := 65535
/-- R6 `COLOR_W`. -/
abbrev colorW : Nat := 24
/-- R6 `HDR_BYTES`. -/
abbrev hdrBytes : Nat := 2
/-- R6 `PIX_BYTES`. -/
abbrev pixBytes : Nat := 3
/-- R6 `ACC_CAPACITY`: the number of accumulator cells. -/
abbrev accCapacity : Nat := 65535
/-- R6 `PIX_IDX_W`. -/
abbrev pixIdxW : Nat := 16

/-- What accumulator cell `index` holds before anything has written it: R22 "Reset value: unspecified",
93_implementation_defined.md I1 "any value". FREE VALUE, safe: log entry 5. -/
opaque freeCell (index : Nat) : Byte

/-- `px_color` in cycle `cycle` while the phase is not EMIT: R35 "any value", I2. FREE VALUE, safe: log entry 11. -/
opaque freeColor (cycle : Nat) : Color

/-- `rst` in a cycle for which no port values are given. FREE VALUE, safe: log entry 2. -/
opaque freeRst (cycle : Nat) : Bool

/-- `in_valid` in a cycle for which no port values are given (R178: "in any cycle, it may offer a byte … or
not"). FREE VALUE, safe: log entry 2. -/
opaque freeInValid (cycle : Nat) : Bool

/-- `in_data` in a cycle for which no byte is given (R178: "it may offer any byte value"; D16). FREE VALUE,
safe: log entry 2. -/
opaque freeInData (cycle : Nat) : Byte

/-- `px_ready` in a cycle for which no port values are given (R179: "in any cycle, it may take the presented
word … or stall"). FREE VALUE, safe: log entry 2. -/
opaque freePxReady (cycle : Nat) : Bool

end Sys2Proof.Config
end

