-- ==== Sys2Proof/Syntax.lean ====
section
/-! DEFINITION. The block's ten operations, one constructor for each row of spec/opcode_table.json
(30_encoding.md rule R76) with the operands of rule R74; and the stimulus notation of rule R79. -/

namespace Sys2Proof

/-- The operation of a cycle with its operand. Only the FEED operations have one: the byte on `in_data`
(R74). -/
inductive Instr where
  /-- RESET (R200). -/
  | reset
  /-- IDLE (R101). -/
  | idle
  /-- FEED_HDR_LO (R102): `inData` is the header low byte. -/
  | feedHdrLo (inData : Byte)
  /-- FEED_HDR_HI (R103): `inData` is the header high byte. -/
  | feedHdrHi (inData : Byte)
  /-- FEED_PAY (R104): `inData` is payload byte number `acc_len`. -/
  | feedPay (inData : Byte)
  /-- FEED_LAST (R105): `inData` is the payload's last byte. -/
  | feedLast (inData : Byte)
  /-- EMIT_WAIT (R142). -/
  | emitWait
  /-- EMIT_PIX (R143). -/
  | emitPix
  /-- EMIT_LAST (R144). -/
  | emitLast
  /-- ILLEGAL (R171). -/
  | illegal
  deriving DecidableEq, Repr

/-- "one (R, G, B) triple destined for a single LED" (00_scope.md, glossary; R73). -/
structure Pixel where
  /-- red -/
  r : Byte
  /-- green -/
  g : Byte
  /-- blue -/
  b : Byte
  deriving DecidableEq, Repr

/-- One directive of the stimulus notation (R79). -/
inductive Directive where
  /-- `.byte b0, b1, ...` -/
  | byte (bytes : List Byte)
  /-- `.frame f0, ..., f(L-1)` -/
  | frame (payload : List Byte)
  /-- `.pixels (r0,g0,b0), ...` -/
  | pixels (ps : List Pixel)
  /-- `.idle n` -/
  | idle (n : Nat)
  /-- `.reset` -/
  | reset
  deriving DecidableEq, Repr

end Sys2Proof
end

