-- ==== Sys2Proof/WellFormed.lean ====
section
/-! DEFINITION. Which terms are well-formed: instructions, decode vectors (30_encoding.md rule R77 (b)) and
stimulus directives (rule R79). -/

namespace Sys2Proof

/-- Every instruction is well-formed: the only operand is a byte, and "The wire format has no illegal
encoding" (R78). -/
def Instr.wf : Instr → Bool
  | .reset => true
  | .idle => true
  | .feedHdrLo _ => true
  | .feedHdrHi _ => true
  | .feedPay _ => true
  | .feedLast _ => true
  | .emitWait => true
  | .emitPix => true
  | .emitLast => true
  | .illegal => true

/-- Whether some state and port values produce the decode vector: its derived bits are 0 outside their phase
(R75, R77 (b)). -/
def dvArises (dv : DecodeVector) : Bool :=
  (!dv[4] || dv.extractLsb 6 5 == 0#2) &&
  (!dv[3] || dv.extractLsb 6 5 == 1#2) &&
  (!dv[0] || dv.extractLsb 6 5 == 2#2)

/-- A directive whose message has a Declared Length: `L` is the count of operands and is 16 bits wide (R79,
R6; R148 gives the bound 21845 for pixels). The other directives have no bound. -/
def Directive.wf : Directive → Bool
  | .byte _ => true
  | .frame payload => decide (payload.length ≤ Config.maxLen)
  | .pixels ps => decide (ps.length ≤ Config.maxLen / Config.pixBytes)
  | .idle _ => true
  | .reset => true

end Sys2Proof
end

