-- ==== Sys2Proof/Decode.lean ====
section
/-! DEFINITION. The decoder of the block's operations and, after it, the encoder (30_encoding.md rules R74 to
R77). An instruction's bytes are the decode vector and, for an operation that has the operand, the byte on
`in_data` after it (log entry 9). -/

namespace Sys2Proof

/-- The ten mnemonics of the operation table. -/
inductive Op where
  | reset | idle | feedHdrLo | feedHdrHi | feedPay | feedLast | emitWait | emitPix | emitLast | illegal
  deriving DecidableEq, Repr

/-- One row of the operation table: the row is selected when `DV & mask == pattern` (R76). -/
structure Row where
  op : Op
  mask : DecodeVector
  pattern : DecodeVector
  deriving DecidableEq, Repr

/-- The operation table, in the spec's order (R76). -/
def opTable : List Row :=
  [ ⟨.reset,     0x80#8, 0x80#8⟩,
    ⟨.idle,      0xC4#8, 0x00#8⟩,
    ⟨.feedHdrLo, 0xF4#8, 0x04#8⟩,
    ⟨.feedHdrHi, 0xF4#8, 0x14#8⟩,
    ⟨.feedPay,   0xEC#8, 0x24#8⟩,
    ⟨.feedLast,  0xEC#8, 0x2C#8⟩,
    ⟨.emitWait,  0xE2#8, 0x40#8⟩,
    ⟨.emitPix,   0xE3#8, 0x42#8⟩,
    ⟨.emitLast,  0xE3#8, 0x43#8⟩,
    ⟨.illegal,   0xE0#8, 0x60#8⟩ ]

/-- Whether a row of the table selects the decode vector (R76). -/
def Row.selects (r : Row) (dv : DecodeVector) : Bool := dv &&& r.mask == r.pattern

/-- The operation the table selects for a decode vector (R76). -/
def selectOp (dv : DecodeVector) : Option Op :=
  (opTable.find? fun r => r.selects dv).map Row.op

/-- Why bytes are no instruction. No cycle of the block gives such bytes (`Machine.fetch_decodes`). -/
inductive DecodeError where
  /-- There is no byte at all. -/
  | noDecodeVector
  /-- No row of the table selects the decode vector (R76: this never happens). -/
  | noRow (dv : DecodeVector)
  /-- The operation takes `in_data` and no byte follows the decode vector (R74). -/
  | noInData (op : Op)
  deriving DecidableEq, Repr

/-- Gives an operation its operand, the byte on `in_data`, and leaves the bytes it does not read (R74). -/
def assemble : Op → List Byte → Except DecodeError (Instr × List Byte)
  | .reset, rest => .ok (.reset, rest)
  | .idle, rest => .ok (.idle, rest)
  | .feedHdrLo, b :: rest => .ok (.feedHdrLo b, rest)
  | .feedHdrHi, b :: rest => .ok (.feedHdrHi b, rest)
  | .feedPay, b :: rest => .ok (.feedPay b, rest)
  | .feedLast, b :: rest => .ok (.feedLast b, rest)
  | .feedHdrLo, [] => .error (.noInData .feedHdrLo)
  | .feedHdrHi, [] => .error (.noInData .feedHdrHi)
  | .feedPay, [] => .error (.noInData .feedPay)
  | .feedLast, [] => .error (.noInData .feedLast)
  | .emitWait, rest => .ok (.emitWait, rest)
  | .emitPix, rest => .ok (.emitPix, rest)
  | .emitLast, rest => .ok (.emitLast, rest)
  | .illegal, rest => .ok (.illegal, rest)

/-- The decoder: the instruction at the head of the bytes, and the bytes after it. -/
def decode : List Byte → Except DecodeError (Instr × List Byte)
  | [] => .error .noDecodeVector
  | dv :: rest =>
    match selectOp dv with
    | none => .error (.noRow dv)
    | some op => assemble op rest

/-- The instruction read from a table word: bits 7..0 are the decode vector and bits 15..8 the byte on
`in_data`, as the ports present them; the bits at `nbits` and above are 0. -/
def decodeTableWord (nbits w : Nat) : Option Instr :=
  match decode [BitVec.ofNat 8 (w % 2 ^ nbits), BitVec.ofNat 8 (w % 2 ^ nbits / 256)] with
  | .ok (i, _) => some i
  | .error _ => none

/-- The bytes of an instruction: the pattern of its row, its don't-care bits 0 (R76), and its operand. -/
def encode : Instr → List Byte
  | .reset => [0b10000000#8]
  | .idle => [0b00000000#8]
  | .feedHdrLo b => [0b00000100#8, b]
  | .feedHdrHi b => [0b00010100#8, b]
  | .feedPay b => [0b00100100#8, b]
  | .feedLast b => [0b00101100#8, b]
  | .emitWait => [0b01000000#8]
  | .emitPix => [0b01000010#8]
  | .emitLast => [0b01000011#8]
  | .illegal => [0b01100000#8]

/-- The mnemonic of an instruction. -/
def Instr.op : Instr → Op
  | .reset => .reset
  | .idle => .idle
  | .feedHdrLo _ => .feedHdrLo
  | .feedHdrHi _ => .feedHdrHi
  | .feedPay _ => .feedPay
  | .feedLast _ => .feedLast
  | .emitWait => .emitWait
  | .emitPix => .emitPix
  | .emitLast => .emitLast
  | .illegal => .illegal

end Sys2Proof
end

