-- ==== Sys2Proof/Machine/State.lean ====
section
/-! DEFINITION. The state of the block (10_state.md rules R20 to R26), the ports' values of the cycles to come
(R34), the observable trace (00_scope.md R11), and the state after reset (R200). -/

namespace Sys2Proof.Machine

/-- The phase register (R20). -/
inductive Phase where
  /-- `AWAIT_LEN`, code 00: the source's AwaitingLength. -/
  | awaitLen
  /-- `AWAIT_PAY`, code 01: the source's AwaitingPayload. -/
  | awaitPay
  /-- `EMIT`, code 10. -/
  | emit
  /-- Code 11, reserved: no operation writes it. -/
  | reserved
  deriving DecidableEq, Repr

/-- What the outside drives on the input ports during one cycle (R34). -/
structure Pins where
  rst : Bool
  inValid : Bool
  inData : Byte
  pxReady : Bool
  deriving DecidableEq, Repr

/-- An observable event (R11). -/
inductive Event where
  /-- `Reset` -/
  | reset
  /-- `ByteAccepted(b)`: the block consumes byte `b`. -/
  | byteAccepted (b : Byte)
  /-- `FrameDone(n)`: a frame of `n` payload bytes completes. -/
  | frameDone (n : Len)
  /-- `PixelEmitted(c)`: the sink takes the colour word `c`. -/
  | pixelEmitted (c : Color)
  deriving DecidableEq, Repr

/-- Why a step stops with a fault. -/
inductive Fault where
  /-- `IllegalPhase(phase)`: raised by ILLEGAL (R171). The spec's own model fault; no run from reset reaches
  it. Safe. -/
  | illegalPhase (phase : BitVec 2)
  /-- An access to an accumulator index that does not exist (R50: ACC runs from 0 to 65534). Raised by the FEED
  and EMIT operations in states that no run reaches (R51, R59). Safe: log entry 6. -/
  | noSuchCell (index : Nat)
  deriving DecidableEq, Repr

/-- Why a step refuses. -/
inductive Refusal where
  /-- An instruction without a meaning. Safe. No arm of `exec` answers it. -/
  | notModelled (mnemonic : String)
  /-- `CapacityRefused(L)`: FEED_HDR_HI where the header's length exceeds the capacity (R172). With
  ACC_CAPACITY = 65535 it cannot occur. Safe: log entry 8. -/
  | capacityRefused (len : Len)
  /-- The bytes of the cycle are no instruction. Raised by `step`; R76 says it never happens. Safe: log entry
  9. -/
  | undecodable
  deriving DecidableEq, Repr

/-- The accumulator's written cells: (index, byte) pairs, indices strictly rising. A cell that is not listed
has not been written (log entry 5). -/
abbrev AccMem := List Host.Cell

/-- The state of the block, the port values of the cycles to come and the trace so far. -/
structure State where
  /-- R20 -/
  phase : Phase
  /-- R21: the number of bytes in the Accumulator. -/
  accLen : Len
  /-- R22: the accumulator's cells. -/
  accMem : AccMem
  /-- R23: whether a Declared Length is present. -/
  declValid : Bool
  /-- R23: the Declared Length, 0 where absent. -/
  declLen : Len
  /-- R24: the length of the most recently completed frame. -/
  frameLen : Len
  /-- R25: the number of the pixel now presented. -/
  pixIdx : Len
  /-- R26: drives `frame_done`. -/
  doneQ : Bool
  /-- R34: the values of the input ports, this cycle's first. Where the list is empty the ports carry free
  values (log entries 1 and 2). -/
  inputs : List Pins
  /-- The model's own: numbers the cycle, so that free values can differ between cycles (log entry 3). -/
  cycle : Nat
  /-- R11: the observable trace, in cycle order (log entry 4). -/
  trace : List Event
  deriving DecidableEq, Repr

/-- What a meaning answers. -/
abbrev Result := Host.Outcome State Fault Refusal

/-- The state right after RESET (R200), with no cell written and nothing given for the ports yet. -/
def State.reset : State where
  phase := .awaitLen
  accLen := 0
  accMem := []
  declValid := false
  declLen := 0
  frameLen := 0
  pixIdx := 0
  doneQ := false
  inputs := []
  cycle := 0
  trace := []

end Sys2Proof.Machine
end

