-- ==== Sys2Proof/Machine/Memory.lean ====
section
/-! DEFINITION. The accumulator's cells as data: reading and writing one cell, and the canonical form. -/

namespace Sys2Proof.Machine

/-- What is listed at an index; nothing where no write has reached it. -/
def AccMem.read : AccMem → Nat → Option Byte
  | [], _ => none
  | (j, v) :: rest, i => if i = j then some v else AccMem.read rest i

/-- Sets one cell and keeps the indices rising (R10, `MemWrite(i, 1, v)`). -/
def AccMem.write : AccMem → Nat → Byte → AccMem
  | [], i, v => [(i, v)]
  | (j, u) :: rest, i, v =>
    if i < j then (i, v) :: (j, u) :: rest
    else if i = j then (i, v) :: rest
    else (j, u) :: AccMem.write rest i v

/-- The indices are at least `low`, strictly rising and inside ACC. -/
def AccMem.wfFrom : Nat → AccMem → Bool
  | _, [] => true
  | low, (j, _) :: rest => decide (low ≤ j) && decide (j < Config.accCapacity) && AccMem.wfFrom (j + 1) rest

/-- The canonical form: indices strictly rising and inside ACC (R50). An unlisted cell reads as no byte, so no
entry can equal what an unlisted cell reads as, and equal memories are equal lists. -/
def AccMem.wf (m : AccMem) : Bool := AccMem.wfFrom 0 m

end Sys2Proof.Machine
end

