-- ==== Sys2Proof/Machine/Operands.lean ====
section
/-! DEFINITION. Operand assembly: the header's value (30_encoding.md R72), pixel triples and counts (R73), the
colour word (41_pixel.md R141), the sink word (R147), the phase code (R20) and this cycle's port values. -/

namespace Sys2Proof.Machine

/-- The 2-bit code of a phase (R20). -/
def Phase.code : Phase → BitVec 2
  | .awaitLen => 0b00#2
  | .awaitPay => 0b01#2
  | .emit => 0b10#2
  | .reserved => 0b11#2

/-- The phase of a 2-bit code (R20). -/
def Phase.ofCode (c : BitVec 2) : Phase :=
  if c == 0b00#2 then .awaitLen else if c == 0b01#2 then .awaitPay else if c == 0b10#2 then .emit else .reserved

/-- `L = zext_16(b0) + (zext_16(b1) << 8)` (R72). -/
def headerLength (b0 b1 : Byte) : Len := b0.setWidth 16 + (b1.setWidth 16 <<< 8)

/-- `L div 3`, the number of pixels in a frame of `L` bytes (R73, R140). -/
def pixelCount (len : Len) : Nat := len.toNat / Config.pixBytes

/-- `pixels(f)`: consecutive triples in (R, G, B) order, the last `L mod 3` bytes dropped (R140). -/
def pixels : List Byte → List Pixel
  | r :: g :: b :: rest => ⟨r, g, b⟩ :: pixels rest
  | _ => []

/-- `color(R, G, B) = (zext_24(G) << 16) | (zext_24(B) << 8) | zext_24(R)` (R141; log entry 16). -/
def color (p : Pixel) : Color :=
  (p.g.setWidth 24 <<< 16) ||| (p.b.setWidth 24 <<< 8) ||| p.r.setWidth 24

/-- The word the out-of-scope sink adapter makes of a colour word: `zext_32(px_color) << 8` (R147). -/
def sinkWord (c : Color) : SinkWord := c.setWidth 32 <<< 8

/-- What the input ports carry this cycle: the given values, or free ones (R34; log entries 1 and 2). -/
def State.pins (s : State) : Pins :=
  match s.inputs with
  | p :: _ => p
  | [] => ⟨Config.freeRst s.cycle, Config.freeInValid s.cycle, Config.freeInData s.cycle, Config.freePxReady s.cycle⟩

/-- `DV[4]`: the next byte completes the header (R75). -/
def State.hdrHi (s : State) : Bool := s.phase == .awaitLen && s.accLen == 1

/-- `DV[3]`: the next byte completes the payload (R75; the sum is exact, R9). -/
def State.payLast (s : State) : Bool := s.phase == .awaitPay && s.accLen.toNat + 1 == s.declLen.toNat

/-- `DV[0]`: the pixel now presented is the frame's last (R75). -/
def State.pixLast (s : State) : Bool := s.phase == .emit && s.pixIdx.toNat + 1 == pixelCount s.frameLen

end Sys2Proof.Machine
end

