-- ==== Sys2Proof/Machine/Flags.lean ====
section
/-! DEFINITION. The block's two status flags, `decl_valid` and `done_q` (10_state.md rule R32): the value every
operation gives them. -/

namespace Sys2Proof.Machine

/-- `decl_valid` after a header of value `L`: "1 if `L >= 1`, else 0" (R103). -/
def declValidAfterHeader (len : Len) : Bool := len != 0

/-- `done_q` after a header of value `L`: "1 if `L = 0`, else 0" (R103). -/
def doneAfterHeader (len : Len) : Bool := len == 0

/-- Sets `done_q` (R26: every operation writes it). -/
def State.withDone (s : State) (done : Bool) : State := { s with doneQ := done }

/-- "Clear Declared Length" (R23). -/
def State.clearDecl (s : State) : State := { s with declValid := false, declLen := 0 }

/-- Makes `L` the Declared Length; a zero length is absent (R23, R103). -/
def State.declare (s : State) (len : Len) : State :=
  { s with declValid := declValidAfterHeader len, declLen := len }

end Sys2Proof.Machine
end

