-- ==== Sys2Proof/Machine/Ops.lean ====
section
/-! DEFINITION. The operations that the meanings share: the accumulator's reads and writes (20_memory.md R50 to
R52), accepting a byte, taking a pixel, RESET's register values, and the end of a cycle. The block has no
exception entry and no return from one (60_exceptions.md R175): RESET is the only way out of the normal
sequence, and `resetRegisters` is its shared operation. -/

namespace Sys2Proof.Machine

/-- Goes on with a value, or stops with the fault that kept it from being had. -/
def orFault {α : Type} (x : Except Fault α) (k : α → Result) : Result :=
  match x with
  | .ok a => k a
  | .error f => .fault f

/-- The byte a cell holds: what was last written, or its free power-on content (log entry 5). -/
def State.cell (s : State) (i : Nat) : Byte := (s.accMem.read i).getD (Config.freeCell i)

/-- `MemRead(i, 1)` (R10, R52). An index outside ACC does not exist (R50; log entry 6). -/
def memRead (s : State) (i : Nat) : Except Fault Byte :=
  if i < Config.accCapacity then .ok (s.cell i) else .error (.noSuchCell i)

/-- `MemWrite(i, 1, v)` (R10, R51). An index outside ACC does not exist (R50; log entry 6). -/
def memWrite (s : State) (i : Nat) (v : Byte) : Except Fault AccMem :=
  if i < Config.accCapacity then .ok (s.accMem.write i v) else .error (.noSuchCell i)

/-- Records an event (R10, `emit_event`). -/
def State.record (s : State) (e : Event) : State := { s with trace := s.trace ++ [e] }

/-- What every byte transfer does: `ByteAccepted`, and the byte written at `acc_len` (R51). -/
def acceptByte (s : State) (b : Byte) : Except Fault State :=
  match memWrite s s.accLen.toNat b with
  | .ok m => .ok ({ s with accMem := m }.record (.byteAccepted b))
  | .error f => .error f

/-- The pixel now presented: cells `3*pix_idx`, `3*pix_idx+1`, `3*pix_idx+2` (R143). -/
def presentedPixel (s : State) : Except Fault Pixel :=
  match memRead s (3 * s.pixIdx.toNat), memRead s (3 * s.pixIdx.toNat + 1), memRead s (3 * s.pixIdx.toNat + 2) with
  | .ok r, .ok g, .ok b => .ok ⟨r, g, b⟩
  | .error f, _, _ => .error f
  | _, .error f, _ => .error f
  | _, _, .error f => .error f

/-- What every pixel transfer does: `PixelEmitted` of the presented pixel's colour (R143, R144). -/
def takePixel (s : State) : Except Fault State :=
  match presentedPixel s with
  | .ok p => .ok (s.record (.pixelEmitted (color p)))
  | .error f => .error f

/-- Whether a header's length fits the accumulator: every length does where the capacity is that of this hardware
(R59, R172; log entry 8). -/
def headerFits (len : Len) : Bool :=
  decide (Config.maxLen ≤ Config.accCapacity) || decide (len.toNat ≤ Config.accCapacity)

/-- The register values of RESET (R200); `acc_mem` is not written. -/
def State.resetRegisters (s : State) : State :=
  { s with
    phase := .awaitLen
    accLen := 0
    declValid := false
    declLen := 0
    frameLen := 0
    pixIdx := 0
    doneQ := false }

/-- The rising edge: the next cycle's port values come up (R34, R207). -/
def State.endCycle (s : State) : State := { s with inputs := s.inputs.tail, cycle := s.cycle + 1 }

/-- The Accumulator: `acc_mem[0], ..., acc_mem[acc_len-1]` (R21). -/
def State.accumulator (s : State) : List Byte := (List.range s.accLen.toNat).map s.cell

/-- `acc_mem[0 .. frame_len-1]`: the completed frame, during EMIT (R22, R30, R106). -/
def State.frameBytes (s : State) : List Byte := (List.range s.frameLen.toNat).map s.cell

/-- The Declared Length as an optional value (R23). -/
def State.declared (s : State) : Option Len := if s.declValid then some s.declLen else none

end Sys2Proof.Machine
end

