-- ==== Sys2Proof/Machine/Ports.lean ====
section
/-! DEFINITION. The output ports (10_state.md rules R34, R35) and the read-only status port (rule R33), as
functions of the state and of this cycle's `rst`. -/

namespace Sys2Proof.Machine

/-- `in_ready` (R35). -/
def State.inReady (s : State) : Bool :=
  !s.pins.rst && (s.phase == .awaitLen || s.phase == .awaitPay)

/-- `px_valid` (R35). -/
def State.pxValid (s : State) : Bool := !s.pins.rst && s.phase == .emit

/-- `px_color` (R35): the presented pixel's colour during EMIT, else any value (I2; log entry 11). It stops
where the cells it would read do not exist, in states no run reaches (log entry 6). -/
def State.pxColor (s : State) : Except Fault Color :=
  if s.phase == .emit then
    match presentedPixel s with
    | .ok p => .ok (color p)
    | .error f => .error f
  else .ok (Config.freeColor s.cycle)

/-- `frame_done` (R26, R35). -/
def State.frameDone (s : State) : Bool := s.doneQ

/-- Whether this cycle has a byte transfer (R34). -/
def State.byteTransfer (s : State) : Bool := s.pins.inValid && s.inReady

/-- Whether this cycle has a pixel transfer (R34). -/
def State.pixelTransfer (s : State) : Bool := s.pxValid && s.pins.pxReady

/-- The read-only status port (R33). -/
structure Status where
  stPhase : BitVec 2
  stAccLen : Len
  stDeclValid : BitVec 1
  stDeclLen : Len
  stFrameLen : Len
  stPixIdx : Len
  deriving DecidableEq, Repr

/-- Each field of the status port is a copy of one state element (R33). -/
def State.status (s : State) : Status where
  stPhase := s.phase.code
  stAccLen := s.accLen
  stDeclValid := BitVec.ofBool s.declValid
  stDeclLen := s.declLen
  stFrameLen := s.frameLen
  stPixIdx := s.pixIdx

/-- The position within the framing, the block's hidden state (R36): what the next accepted byte is. -/
inductive FramingPosition where
  /-- a header low byte -/
  | headerLow
  /-- a header high byte -/
  | headerHigh
  /-- a payload byte, with this many payload bytes still to come -/
  | payload (remaining : Nat)
  deriving DecidableEq, Repr

/-- The framing position of a legal phase (R36). During EMIT the next byte is a header low byte (90_conflicts.md C4).
The reserved phase has none. -/
def State.framing (s : State) : Option FramingPosition :=
  match s.phase with
  | .awaitLen => some (if s.accLen == 1 then .headerHigh else .headerLow)
  | .awaitPay => some (.payload (s.declLen.toNat - s.accLen.toNat))
  | .emit => some .headerLow
  | .reserved => none

end Sys2Proof.Machine
end

