-- ==== Sys2Proof/Machine/Fetch.lean ====
section
/-! DEFINITION. What selects the operation of a cycle: the decode vector (30_encoding.md rule R75), the bytes
the decoder reads, and the state in which a given word is the one the next cycle decodes. -/

namespace Sys2Proof.Machine

/-- The decode vector of this cycle (R75). -/
def State.decodeVector (s : State) : DecodeVector :=
  BitVec.ofBool s.pins.rst ++ s.phase.code ++ BitVec.ofBool s.hdrHi ++ BitVec.ofBool s.payLast ++
    BitVec.ofBool s.pins.inValid ++ BitVec.ofBool s.pins.pxReady ++ BitVec.ofBool s.pixLast

/-- The bytes of this cycle's instruction: the decode vector and the byte on `in_data` (R74; log entry 9). -/
def State.fetchBytes (s : State) : List Byte := [s.decodeVector, s.pins.inData]

/-- The port values that a decode vector and a byte on `in_data` ask for (R75). -/
def pinsOf (dv : DecodeVector) (inData : Byte) : Pins :=
  ⟨dv[7], dv[2], inData, dv[1]⟩

/-- Puts the given port values on the ports of this cycle; later cycles keep theirs. -/
def State.withPins (s : State) (p : Pins) : State := { s with inputs := p :: s.inputs.tail }

/-- A legal sequencing state whose derived bits are those of the decode vector, where some state has them
(R28 to R30, R75). `acc_mem`, `done_q`, the trace and the cycle number are kept. -/
def State.withSequencing (s : State) (dv : DecodeVector) : State :=
  match Phase.ofCode (dv.extractLsb 6 5) with
  | .awaitLen =>
    { s with phase := .awaitLen, accLen := if dv[4] then 1 else 0, declValid := false, declLen := 0, pixIdx := 0 }
  | .awaitPay =>
    { s with phase := .awaitPay, accLen := 0, declValid := true, declLen := if dv[3] then 1 else 2, pixIdx := 0 }
  | .emit =>
    { s with phase := .emit, accLen := 0, declValid := false, declLen := 0, pixIdx := 0,
             frameLen := if dv[0] then 3 else 6 }
  | .reserved => { s with phase := .reserved }

/-- The state in which the next cycle's decode vector and `in_data` are the given ones: the ports are set, and
the sequencing state is replaced only where it does not give the vector already (log entry 10). -/
def State.selecting (s : State) (dv : DecodeVector) (inData : Byte) : State :=
  let s' := s.withPins (pinsOf dv inData)
  if s'.decodeVector == dv then s' else s'.withSequencing dv

end Sys2Proof.Machine
end

