-- ==== Sys2Proof/Machine/Byte.lean ====
section
/-! DEFINITION. The byte-feed family: IDLE, FEED_HDR_LO, FEED_HDR_HI, FEED_PAY, FEED_LAST (40_decoder.md). State
reads see the start of the cycle and writes take effect at its end (R10). -/

namespace Sys2Proof.Machine

/-- IDLE (R101): `done_q <- 0`. -/
def execIdle (s : State) : Result := .next (s.withDone false)

/-- FEED_HDR_LO (R102). -/
def execFeedHdrLo (b : Byte) (s : State) : Result :=
  orFault (acceptByte s b) fun t => .next ({ t with accLen := s.accLen + 1 }.withDone false)

/-- What FEED_HDR_HI does once the length is known (R103): the accumulator is cleared; a zero length completes an
empty frame, any other becomes the Declared Length. -/
def headerDecoded (t : State) (len : Len) : State :=
  let u := ({ t with accLen := 0 }.declare len).withDone (doneAfterHeader len)
  if len == 0 then { u with frameLen := 0, phase := .awaitLen }.record (.frameDone 0)
  else { u with phase := .awaitPay }

/-- FEED_HDR_HI (R103), with the refusal of R172 for an accumulator that is too small. -/
def execFeedHdrHi (b : Byte) (s : State) : Result :=
  orFault (memRead s 0) fun b0 =>
    if headerFits (headerLength b0 b) then
      orFault (acceptByte s b) fun t => .next (headerDecoded t (headerLength b0 b))
    else .refused (.capacityRefused (headerLength b0 b))

/-- FEED_PAY (R104). -/
def execFeedPay (b : Byte) (s : State) : Result :=
  orFault (acceptByte s b) fun t => .next ({ t with accLen := s.accLen + 1 }.withDone false)

/-- What FEED_LAST does once the byte is stored (R105): the frame of `len` bytes is complete. -/
def frameCompleted (t : State) (len : Len) : State :=
  ({ t with
      accLen := 0
      frameLen := len
      phase := if pixelCount len == 0 then .awaitLen else .emit }.clearDecl.withDone true).record (.frameDone len)

/-- FEED_LAST (R105). -/
def execFeedLast (b : Byte) (s : State) : Result :=
  orFault (acceptByte s b) fun t => .next (frameCompleted t s.declLen)

end Sys2Proof.Machine
end

