-- ==== Sys2Proof/Machine/Pixel.lean ====
section
/-! DEFINITION. The emission family: EMIT_WAIT, EMIT_PIX, EMIT_LAST (41_pixel.md). -/

namespace Sys2Proof.Machine

/-- EMIT_WAIT (R142): `done_q <- 0`. -/
def execEmitWait (s : State) : Result := .next (s.withDone false)

/-- EMIT_PIX (R143). -/
def execEmitPix (s : State) : Result :=
  orFault (takePixel s) fun t => .next ({ t with pixIdx := s.pixIdx + 1 }.withDone false)

/-- EMIT_LAST (R144). -/
def execEmitLast (s : State) : Result :=
  orFault (takePixel s) fun t => .next ({ t with pixIdx := 0, phase := .awaitLen }.withDone false)

end Sys2Proof.Machine
end

