-- ==== Sys2Proof/Machine/System.lean ====
section
/-! DEFINITION. RESET (70_reset_and_hazards.md rule R200) and ILLEGAL (60_exceptions.md rule R171). -/

namespace Sys2Proof.Machine

/-- RESET (R200): the registers take their reset values, `acc_mem` keeps its cells, event `Reset`. -/
def execReset (s : State) : Result := .next (s.resetRegisters.record .reset)

/-- ILLEGAL (R171): `raise IllegalPhase(phase)`. "It does not guess a next state." -/
def execIllegal (s : State) : Result := .fault (.illegalPhase s.phase.code)

end Sys2Proof.Machine
end

