-- ==== Sys2Proof/Machine/Dispatch.lean ====
section
/-! DEFINITION. One arm for each operation. -/

namespace Sys2Proof.Machine

def exec (i : Instr) (s : State) : Host.Outcome State Fault Refusal :=
  match i with
  | .reset => Sys2Proof.Machine.execReset s
  | .idle => Sys2Proof.Machine.execIdle s
  | .feedHdrLo b => Sys2Proof.Machine.execFeedHdrLo b s
  | .feedHdrHi b => Sys2Proof.Machine.execFeedHdrHi b s
  | .feedPay b => Sys2Proof.Machine.execFeedPay b s
  | .feedLast b => Sys2Proof.Machine.execFeedLast b s
  | .emitWait => Sys2Proof.Machine.execEmitWait s
  | .emitPix => Sys2Proof.Machine.execEmitPix s
  | .emitLast => Sys2Proof.Machine.execEmitLast s
  | .illegal => Sys2Proof.Machine.execIllegal s

end Sys2Proof.Machine
end

