-- ==== Sys2Proof/Machine/Step.lean ====
section
/-! DEFINITION. One step is one clock cycle: the operation the decode vector selects (30_encoding.md rule R76),
then the rising edge. -/

namespace Sys2Proof.Machine

/-- One clock cycle. -/
def step (s : State) : Host.Outcome State Fault Refusal :=
  match decode s.fetchBytes with
  | .error _ => .refused .undecodable
  | .ok (i, _) =>
    match exec i s with
    | .next t => .next t.endCycle
    | .fault f => .fault f
    | .refused r => .refused r

/-- `s` with the ports and the sequencing state such that the next step runs the table word `w`: bits 7..0 are
the decode vector, bits 15..8 the byte on `in_data` (log entry 10). -/
def State.withFetchWord (s : State) (nbits w : Nat) : State :=
  s.selecting (BitVec.ofNat 8 (w % 2 ^ nbits)) (BitVec.ofNat 8 (w % 2 ^ nbits / 256))

end Sys2Proof.Machine
end

