-- ==== Sys2Proof/Machine/Stimulus.lean ====
section
/-! DEFINITION. The stimulus notation (30_encoding.md rule R79) and the two agents at the ports as it describes
them: a byte source that presents each byte until the block accepts it (60_exceptions.md rule R178) and a pixel
sink with a schedule of `px_ready` (rule R179). One bench cycle drives the ports and runs one step. -/

namespace Sys2Proof.Machine

/-- What the byte source has to do next. -/
inductive SourceItem where
  /-- Present a byte until it is accepted. -/
  | byte (b : Byte)
  /-- One cycle with `in_valid = 0`. -/
  | idle
  /-- One cycle with `rst = 1`. -/
  | reset
  deriving DecidableEq, Repr

/-- `.byte L[7:0], L[15:8], f0, ..., f(L-1)` (R79, R70). -/
def message (payload : List Byte) : List Byte :=
  BitVec.ofNat 8 payload.length :: BitVec.ofNat 8 (payload.length / 256) :: payload

/-- A pixel's bytes in (R, G, B) order (R54, R70). -/
def Pixel.bytes (p : Pixel) : List Byte := [p.r, p.g, p.b]

/-- The bytes or cycles a directive expands to (R79). -/
def expand : Directive → List SourceItem
  | .byte bytes => bytes.map .byte
  | .frame payload => (message payload).map .byte
  | .pixels ps => (message (ps.flatMap Pixel.bytes)).map .byte
  | .idle n => List.replicate n .idle
  | .reset => [.reset]

/-- The agents at the ports: what the source has still to do, and the sink's `px_ready` for the cycles to come, 1
where the schedule has ended (R79). -/
structure Bench where
  source : List SourceItem
  sink : List Bool
  deriving DecidableEq, Repr

/-- The bench of a program (R79). -/
def Bench.ofProgram (program : List Directive) (sink : List Bool) : Bench := ⟨program.flatMap expand, sink⟩

/-- What the bench drives this cycle (R79). A byte not offered has a free value on `in_data` (D16), and the
source offers nothing in a reset cycle and after its last item (log entry 15). -/
def Bench.pins (b : Bench) (cycle : Nat) : Pins :=
  match b.source with
  | .byte d :: _ => ⟨false, true, d, b.sink.headD true⟩
  | .idle :: _ => ⟨false, false, Config.freeInData cycle, b.sink.headD true⟩
  | .reset :: _ => ⟨true, false, Config.freeInData cycle, b.sink.headD true⟩
  | [] => ⟨false, false, Config.freeInData cycle, b.sink.headD true⟩

/-- The bench after a cycle: a byte is consumed only where it was accepted, and must then "not be offered again"
(R178); an idle or a reset cycle is over. -/
def Bench.advance (b : Bench) (accepted : Bool) : Bench :=
  match b.source with
  | .byte _ :: rest => ⟨if accepted then rest else b.source, b.sink.tail⟩
  | _ :: rest => ⟨rest, b.sink.tail⟩
  | [] => ⟨[], b.sink.tail⟩

/-- One cycle of the block with the bench at its ports. -/
def benchStep (b : Bench) (s : State) : Host.Outcome (Bench × State) Fault Refusal :=
  let s' := s.withPins (b.pins s.cycle)
  match step s' with
  | .next t => .next (b.advance s'.byteTransfer, t)
  | .fault f => .fault f
  | .refused r => .refused r

/-- A number of cycles of the block with the bench at its ports. -/
def benchRun : Nat → Bench → State → Host.Outcome (Bench × State) Fault Refusal
  | 0, b, s => .next (b, s)
  | n + 1, b, s =>
    match benchStep b s with
    | .next (b', t) => benchRun n b' t
    | .fault f => .fault f
    | .refused r => .refused r

end Sys2Proof.Machine
end

