-- ==== Sys2Proof/Machine/Feed.lean ====
section
/-! DEFINITION. The transaction-level decoder: the source's `feed` function (40_decoder.md rule R100) over byte
sequences, and what a sequence of accepted bytes must give: its framing events and its frames. It has no cycle,
port or cell; rule R107 says that the cycle operations implement it. -/

namespace Sys2Proof.Machine

/-- The decoder of the source: the Accumulator's bytes and the Declared Length. It awaits a payload exactly
while a Declared Length is present (R23). -/
structure Decoder where
  acc : List Byte
  decl : Option Len
  deriving DecidableEq, Repr

/-- "AwaitingLength (initial)", with an empty Accumulator (R20, R21). -/
def Decoder.initial : Decoder := ⟨[], none⟩

/-- Step 2 of `feed` (R100): a second header byte gives the Declared Length and clears the Accumulator. -/
def Decoder.header (d : Decoder) : Decoder :=
  match d.decl, d.acc with
  | none, [b0, b1] => ⟨[], some (headerLength b0 b1)⟩
  | _, _ => d

/-- Step 3 of `feed` (R100): an Accumulator as long as the Declared Length is a complete frame. -/
def Decoder.complete (d : Decoder) : Decoder × Option (List Byte) :=
  match d.decl with
  | some len => if d.acc.length = len.toNat then (.initial, some d.acc) else (d, none)
  | none => (d, none)

/-- `feed(b)` (R100): append; then step 2; then step 3, in the same call (90_conflicts.md C1). -/
def Decoder.feed (d : Decoder) (b : Byte) : Decoder × Option (List Byte) :=
  ({ d with acc := d.acc ++ [b] } : Decoder).header.complete

/-- What feeding bytes one by one has given so far. -/
structure FeedLog where
  decoder : Decoder
  /-- The `ByteAccepted` and `FrameDone` events, in order (R107). -/
  events : List Event
  /-- The completed frames, in order. -/
  frames : List (List Byte)
  deriving DecidableEq, Repr

/-- Before any byte. -/
def FeedLog.initial : FeedLog := ⟨.initial, [], []⟩

/-- One byte more; each `FrameReady(frame)` becomes `FrameDone(length(frame))` (R107). -/
def FeedLog.feed (l : FeedLog) (b : Byte) : FeedLog :=
  match l.decoder.feed b with
  | (d, some f) => ⟨d, l.events ++ [.byteAccepted b, .frameDone (BitVec.ofNat 16 f.length)], l.frames ++ [f]⟩
  | (d, none) => ⟨d, l.events ++ [.byteAccepted b], l.frames⟩

/-- `feed` applied once to each byte in order (R107). -/
def feedAll (bytes : List Byte) : FeedLog := bytes.foldl FeedLog.feed .initial

/-- The colour words of a frame's pixels, in frame order (R140, R141, R146). -/
def frameColors (f : List Byte) : List Color := (pixels f).map color

/-- What a trace holds after its last `Reset`. -/
def sinceReset (tr : List Event) : List Event :=
  tr.foldl (fun es e => if e = .reset then [] else es ++ [e]) []

/-- The bytes accepted in a trace, in order. -/
def bytesOf (tr : List Event) : List Byte :=
  tr.filterMap fun e => match e with
    | .byteAccepted b => some b
    | _ => none

/-- The colour words emitted in a trace, in order. -/
def colorsOf (tr : List Event) : List Color :=
  tr.filterMap fun e => match e with
    | .pixelEmitted c => some c
    | _ => none

/-- The `ByteAccepted` and `FrameDone` events of a trace, in order. -/
def framingOf (tr : List Event) : List Event :=
  tr.filter fun e => match e with
    | .byteAccepted _ => true
    | .frameDone _ => true
    | _ => false

end Sys2Proof.Machine
end

