-- ==== Sys2Proof/Safety.lean ====
section
/-! DEFINITION. What the claims are stated in: the invariants of every reachable state (10_state.md rules R28 to
R31), the relation between the trace and the state (rules R106, R107, R146), and a safe step. -/

namespace Sys2Proof.Machine

/-- Cells `0 .. n-1` have been written (R31). -/
def State.written (s : State) (n : Nat) : Prop := ∀ i, i < n → (s.accMem.read i).isSome

/-- R28, for `AWAIT_LEN`. -/
structure State.AwaitLenInv (s : State) : Prop where
  accLen_le : s.accLen.toNat ≤ 1
  declValid : s.declValid = false
  declLen : s.declLen = 0
  pixIdx : s.pixIdx = 0
  written : s.written s.accLen.toNat

/-- R29, for `AWAIT_PAY`. -/
structure State.AwaitPayInv (s : State) : Prop where
  declValid : s.declValid = true
  declLen_pos : 1 ≤ s.declLen.toNat
  accLen_lt : s.accLen.toNat < s.declLen.toNat
  pixIdx : s.pixIdx = 0
  written : s.written s.accLen.toNat

/-- R30, for `EMIT`. -/
structure State.EmitInv (s : State) : Prop where
  accLen : s.accLen = 0
  declValid : s.declValid = false
  declLen : s.declLen = 0
  frameLen_ge : 3 ≤ s.frameLen.toNat
  pixIdx_lt : s.pixIdx.toNat < pixelCount s.frameLen
  written : s.written s.frameLen.toNat

/-- The invariant of the registers and cells: R28 to R31, no reserved phase (R20), and the canonical form of the
accumulator's cells. -/
def State.Inv (s : State) : Prop :=
  s.accMem.wf = true ∧
  match s.phase with
  | .awaitLen => s.AwaitLenInv
  | .awaitPay => s.AwaitPayInv
  | .emit => s.EmitInv
  | .reserved => False

/-- The colour words of the frame in EMIT that the sink has not taken yet (R143, R146). -/
def State.pending (s : State) : List Color :=
  if s.phase = .emit then (frameColors s.frameBytes).drop s.pixIdx.toNat else []

/-- What the trace since the last reset says of the state. -/
structure State.TraceInv (s : State) : Prop where
  /-- The framing events are those that `feed`, applied to each accepted byte in order, gives (R107). -/
  framing : framingOf (sinceReset s.trace) = (feedAll (bytesOf (sinceReset s.trace))).events
  /-- The Accumulator and the Declared Length are the decoder's (R28, R29, R107). -/
  decoder : (feedAll (bytesOf (sinceReset s.trace))).decoder = ⟨s.accumulator, s.declared⟩
  /-- Every pixel of every completed frame is emitted once and in order, but for those still pending (R146). -/
  emitted : colorsOf (sinceReset s.trace) ++ s.pending =
    (feedAll (bytesOf (sinceReset s.trace))).frames.flatMap frameColors
  /-- `frame_len` is the length of the most recently completed frame, 0 before any (R24). -/
  frameLen : s.frameLen.toNat = ((feedAll (bytesOf (sinceReset s.trace))).frames.getLast?.getD []).length
  /-- During EMIT the cells hold the completed frame (R30, R106). -/
  frame : s.phase = .emit →
    (feedAll (bytesOf (sinceReset s.trace))).frames.getLast? = some s.frameBytes

/-- A number of cycles, stopping at the first fault or refusal. -/
def run : Nat → State → Result
  | 0, s => .next s
  | n + 1, s =>
    match step s with
    | .next t => run n t
    | .fault f => .fault f
    | .refused r => .refused r

/-- The states of every run that begins with RESET, whatever the ports carry (R202, R178, R179). -/
inductive Reachable : State → Prop where
  /-- Right after RESET, with any port values to come. -/
  | reset (ports : List Pins) : Reachable { State.reset with inputs := ports }
  /-- One cycle more. -/
  | step {s t : State} : Reachable s → Machine.step s = .next t → Reachable t

/-- A step of a safe run: it gives a next state, no fault and no refusal. -/
def State.SafeStep (s : State) : Prop := ∃ t, step s = .next t

end Sys2Proof.Machine
end

