-- ==== Sys2Proof/Certificates/Slice0/Obligations.lean ====
section
/-! DEFINITION. The statements for the provers. Each docstring names the rule of spec/ it formalises. -/

open Sys2Proof Sys2Proof.Machine

/-! ### Decoding (30_encoding.md) -/

/-- R76: the operation of a cycle is the row whose `DV & mask == match`; the table is complete and its rows are
disjoint; RESET outranks every other row. -/
def Obligations.EveryVectorSelectsExactlyOneRow : Prop :=
  ∀ dv : DecodeVector,
    (dv &&& 0x80#8 = 0x80#8 → selectOp dv = some .reset) ∧
    (dv &&& 0xC4#8 = 0x00#8 → selectOp dv = some .idle) ∧
    (dv &&& 0xF4#8 = 0x04#8 → selectOp dv = some .feedHdrLo) ∧
    (dv &&& 0xF4#8 = 0x14#8 → selectOp dv = some .feedHdrHi) ∧
    (dv &&& 0xEC#8 = 0x24#8 → selectOp dv = some .feedPay) ∧
    (dv &&& 0xEC#8 = 0x2C#8 → selectOp dv = some .feedLast) ∧
    (dv &&& 0xE2#8 = 0x40#8 → selectOp dv = some .emitWait) ∧
    (dv &&& 0xE3#8 = 0x42#8 → selectOp dv = some .emitPix) ∧
    (dv &&& 0xE3#8 = 0x43#8 → selectOp dv = some .emitLast) ∧
    (dv &&& 0xE0#8 = 0x60#8 → selectOp dv = some .illegal) ∧
    ∃ r, r ∈ opTable ∧ r.selects dv = true ∧ ∀ r', r' ∈ opTable → r'.selects dv = true → r' = r

/-- R74, R76: decoding an encoded instruction gives it back, whatever bytes follow; and what a decode vector and
the byte on `in_data` decode to encodes to the pattern of the one selected row and that byte. The place of the
byte after the vector is the model's own (log entry 9). -/
def Obligations.DecodeAndEncodeAgree : Prop :=
  (∀ (i : Instr) (rest : List Byte), i.wf = true → decode (encode i ++ rest) = .ok (i, rest)) ∧
  (∀ (dv : DecodeVector) (d : Byte), ∃ i rest r,
    decode [dv, d] = .ok (i, rest) ∧ r ∈ opTable ∧ r.selects dv = true ∧ r.op = i.op ∧
      encode i ++ rest = [r.pattern, d])

/-- R74, R75, R76: words written out from the table's patterns, some with don't-care bits set, decode to the
operations they stand for, the FEED operations with the byte on `in_data` as their operand (R74). In the four 16-bit
words the decode vector is bits 7..0, as the table numbers it, and the operand byte is in bits 15..8: that place is
the model's choice (log entry 9), not the spec's. A sanity statement. -/
def Obligations.WrittenOutWordsDecode : Prop :=
  decodeTableWord 8 0b10000010 = some .reset ∧
  decodeTableWord 8 0b10100010 = some .reset ∧
  decodeTableWord 8 0b00010010 = some .idle ∧
  decodeTableWord 8 0b00101000 = some .idle ∧
  decodeTableWord 16 0x3406 = some (.feedHdrLo 0x34#8) ∧
  decodeTableWord 16 0x1216 = some (.feedHdrHi 0x12#8) ∧
  decodeTableWord 16 0x7F26 = some (.feedPay 0x7F#8) ∧
  decodeTableWord 16 0xFE2E = some (.feedLast 0xFE#8) ∧
  decodeTableWord 8 0b01000101 = some .emitWait ∧
  decodeTableWord 8 0b01000110 = some .emitPix ∧
  decodeTableWord 8 0b01000111 = some .emitLast ∧
  decodeTableWord 8 0b01111111 = some .illegal

/-- R75: each bit of the decode vector by its equation. -/
def Obligations.DecodeVectorBitsFollowTheirEquations : Prop :=
  ∀ s : State,
    s.decodeVector[7] = s.pins.rst ∧
    s.decodeVector.extractLsb 6 5 = s.phase.code ∧
    (s.decodeVector[4] = true ↔ s.phase = .awaitLen ∧ s.accLen = 1) ∧
    (s.decodeVector[3] = true ↔ s.phase = .awaitPay ∧ s.accLen.setWidth 17 + 1 = s.declLen.setWidth 17) ∧
    s.decodeVector[2] = s.pins.inValid ∧
    s.decodeVector[1] = s.pins.pxReady ∧
    (s.decodeVector[0] = true ↔
      s.phase = .emit ∧ s.pixIdx.setWidth 17 + 1 = BitVec.ofNat 17 (s.frameLen.toNat / 3))

/-- R75, R77 (b): every state's vector has its derived bits 0 outside their phase, and every such vector is the
vector of some state, with any byte on `in_data`: the state that the model's `selecting` builds (log entry 10). -/
def Obligations.ExactlyTheArisingVectorsArise : Prop :=
  (∀ s : State, dvArises s.decodeVector = true) ∧
  (∀ (s : State) (dv : DecodeVector) (d : Byte), dvArises dv = true →
    (s.selecting dv d).decodeVector = dv ∧ (s.selecting dv d).pins.inData = d)

/-- R74: "No operation's selection depends on the byte's value": two cycles that differ only in `in_data` select
the same operation. -/
def Obligations.InDataSelectsNothing : Prop :=
  ∀ (s : State) (p : Pins) (d : Byte) (i j : Instr) (rest rest' : List Byte),
    decode (s.withPins p).fetchBytes = .ok (i, rest) →
    decode (s.withPins { p with inData := d }).fetchBytes = .ok (j, rest') →
    i.op = j.op ∧ (s.withPins p).decodeVector = (s.withPins { p with inData := d }).decodeVector

/-- R75, R76: the operation of a cycle, told from the state and the ports. -/
def Obligations.StateAndPortsSelectTheOperation : Prop :=
  ∀ s : State,
    (s.pins.rst = true → decode s.fetchBytes = .ok (.reset, [s.pins.inData])) ∧
    (s.pins.rst = false →
      (s.phase = .awaitLen ∨ s.phase = .awaitPay → s.pins.inValid = false →
        decode s.fetchBytes = .ok (.idle, [s.pins.inData])) ∧
      (s.phase = .awaitLen → s.pins.inValid = true → s.accLen ≠ 1 →
        decode s.fetchBytes = .ok (.feedHdrLo s.pins.inData, [])) ∧
      (s.phase = .awaitLen → s.pins.inValid = true → s.accLen = 1 →
        decode s.fetchBytes = .ok (.feedHdrHi s.pins.inData, [])) ∧
      (s.phase = .awaitPay → s.pins.inValid = true → s.accLen.toNat + 1 ≠ s.declLen.toNat →
        decode s.fetchBytes = .ok (.feedPay s.pins.inData, [])) ∧
      (s.phase = .awaitPay → s.pins.inValid = true → s.accLen.toNat + 1 = s.declLen.toNat →
        decode s.fetchBytes = .ok (.feedLast s.pins.inData, [])) ∧
      (s.phase = .emit → s.pins.pxReady = false → decode s.fetchBytes = .ok (.emitWait, [s.pins.inData])) ∧
      (s.phase = .emit → s.pins.pxReady = true → s.pixIdx.toNat + 1 ≠ s.frameLen.toNat / 3 →
        decode s.fetchBytes = .ok (.emitPix, [s.pins.inData])) ∧
      (s.phase = .emit → s.pins.pxReady = true → s.pixIdx.toNat + 1 = s.frameLen.toNat / 3 →
        decode s.fetchBytes = .ok (.emitLast, [s.pins.inData])) ∧
      (s.phase = .reserved → decode s.fetchBytes = .ok (.illegal, [s.pins.inData])))

/-- A step runs the decoded instruction, and then the next cycle's port values come up and the cycle number
advances (the two are the model's own: log entries 1 and 3). -/
def Obligations.StepRunsTheDecodedInstruction : Prop :=
  ∀ (s : State) (i : Instr) (rest : List Byte), decode s.fetchBytes = .ok (i, rest) → i.wf = true →
    (∀ t, exec i s = .next t → step s = .next { t with inputs := t.inputs.tail, cycle := t.cycle + 1 }) ∧
    (∀ f, exec i s = .fault f → step s = .fault f) ∧
    (∀ r, exec i s = .refused r → step s = .refused r)

/-- The model's choice of log entry 10: with a table word placed where the next cycle decodes, the next step is
the word's instruction. -/
def Obligations.StepRunsThePlacedWord : Prop :=
  ∀ (s : State) (nbits w : Nat) (i : Instr), decodeTableWord nbits w = some i →
    (∀ t, exec i (s.withFetchWord nbits w) = .next t → step (s.withFetchWord nbits w) = .next t.endCycle) ∧
    (∀ f, exec i (s.withFetchWord nbits w) = .fault f → step (s.withFetchWord nbits w) = .fault f) ∧
    (∀ r, exec i (s.withFetchWord nbits w) ≠ .refused r)

/-! ### The operations, their results and their frames -/

/-- R200: the encoding of RESET, its register values, `acc_mem` not written, no transfer in a cycle with `rst = 1`,
and several in a row acting as one. -/
def Obligations.ResetOperation : Prop :=
  (∀ (dv : DecodeVector) (d : Byte), dv &&& 0x80#8 = 0x80#8 → decode [dv, d] = .ok (.reset, [d])) ∧
  (∀ s : State, ∃ t, exec .reset s = .next t ∧
    t.phase = .awaitLen ∧ t.accLen = 0 ∧ t.declValid = false ∧ t.declLen = 0 ∧ t.frameLen = 0 ∧ t.pixIdx = 0 ∧
    t.doneQ = false ∧ (∀ a, t.accMem.read a = s.accMem.read a) ∧ t.trace = s.trace ++ [.reset] ∧
    t.framing = some .headerLow) ∧
  (∀ s : State, s.pins.rst = true → s.inReady = false ∧ s.pxValid = false ∧ ∃ t, step s = .next t) ∧
  (∀ s t u : State, exec .reset s = .next t → exec .reset t = .next u →
    u = { t with trace := t.trace ++ [.reset] })

/-- R174 (a), R201: in a cycle with `rst = 1`, in every phase, the step gives the registers of reset, transfers no
byte and no pixel, and leaves nothing in progress. -/
def Obligations.ResetOutranksEveryOperation : Prop :=
  ∀ s : State, s.pins.rst = true → ∃ t, step s = .next t ∧
    s.byteTransfer = false ∧ s.pixelTransfer = false ∧
    t.phase = .awaitLen ∧ t.accumulator = [] ∧ t.declared = none ∧ t.pending = [] ∧ t.frameLen = 0 ∧ t.doneQ = false ∧
    (∀ a, t.accMem.read a = s.accMem.read a) ∧ t.trace = s.trace ++ [.reset] ∧ sinceReset t.trace = []

/-- R101: the encoding of IDLE, `done_q <- 0`, nothing else changes. -/
def Obligations.IdleOperation : Prop :=
  (∀ (dv : DecodeVector) (d : Byte), dv &&& 0xC4#8 = 0x00#8 → decode [dv, d] = .ok (.idle, [d])) ∧
  (∀ s : State, ∃ t, exec .idle s = .next t ∧
    t.doneQ = false ∧ t.frameDone = false ∧ t.framing = s.framing ∧
    t.phase = s.phase ∧ t.accLen = s.accLen ∧ t.declValid = s.declValid ∧ t.declLen = s.declLen ∧
    t.frameLen = s.frameLen ∧ t.pixIdx = s.pixIdx ∧ (∀ a, t.accMem.read a = s.accMem.read a) ∧ t.trace = s.trace)

/-- R102: FEED_HDR_LO, its encoding, result and frame, for every state whose index `acc_len` is a cell. -/
def Obligations.FeedHdrLoOperation : Prop :=
  (∀ (dv : DecodeVector) (b : Byte), dv &&& 0xF4#8 = 0x04#8 → decode [dv, b] = .ok (.feedHdrLo b, [])) ∧
  (∀ (s : State) (b : Byte), s.accLen.toNat < 65535 → ∃ t, exec (.feedHdrLo b) s = .next t ∧
    t.accMem.read s.accLen.toNat = some b ∧
    (∀ a, a ≠ s.accLen.toNat → t.accMem.read a = s.accMem.read a) ∧
    t.accLen.toNat = s.accLen.toNat + 1 ∧ t.doneQ = false ∧ t.trace = s.trace ++ [.byteAccepted b] ∧
    t.phase = s.phase ∧ t.declValid = s.declValid ∧ t.declLen = s.declLen ∧ t.frameLen = s.frameLen ∧
    t.pixIdx = s.pixIdx)

/-- R103: FEED_HDR_HI, its encoding, both branches, and its frame. `L` is `MemRead(0, 1)` plus the byte shifted
left by 8. -/
def Obligations.FeedHdrHiOperation : Prop :=
  (∀ (dv : DecodeVector) (b : Byte), dv &&& 0xF4#8 = 0x14#8 → decode [dv, b] = .ok (.feedHdrHi b, [])) ∧
  (∀ (s : State) (b : Byte) (L : Len), s.accLen.toNat < 65535 →
    L = (s.cell 0).setWidth 16 + (b.setWidth 16 <<< 8) →
    ∃ t, exec (.feedHdrHi b) s = .next t ∧
      t.accMem.read s.accLen.toNat = some b ∧
      (∀ a, a ≠ s.accLen.toNat → t.accMem.read a = s.accMem.read a) ∧
      t.accLen = 0 ∧ t.pixIdx = s.pixIdx ∧
      (L = 0 → t.declValid = false ∧ t.declLen = 0 ∧ t.frameLen = 0 ∧ t.phase = .awaitLen ∧ t.doneQ = true ∧
        t.trace = s.trace ++ [.byteAccepted b, .frameDone 0]) ∧
      (L ≠ 0 → t.declValid = true ∧ t.declLen = L ∧ t.frameLen = s.frameLen ∧ t.phase = .awaitPay ∧
        t.doneQ = false ∧ t.trace = s.trace ++ [.byteAccepted b]))

/-- R104: FEED_PAY, its encoding, result and frame. -/
def Obligations.FeedPayOperation : Prop :=
  (∀ (dv : DecodeVector) (b : Byte), dv &&& 0xEC#8 = 0x24#8 → decode [dv, b] = .ok (.feedPay b, [])) ∧
  (∀ (s : State) (b : Byte), s.accLen.toNat < 65535 → ∃ t, exec (.feedPay b) s = .next t ∧
    t.accMem.read s.accLen.toNat = some b ∧
    (∀ a, a ≠ s.accLen.toNat → t.accMem.read a = s.accMem.read a) ∧
    t.accLen.toNat = s.accLen.toNat + 1 ∧ t.doneQ = false ∧ t.trace = s.trace ++ [.byteAccepted b] ∧
    t.phase = s.phase ∧ t.declValid = s.declValid ∧ t.declLen = s.declLen ∧ t.frameLen = s.frameLen ∧
    t.pixIdx = s.pixIdx)

/-- R105: FEED_LAST, its encoding, result (with no pixel, and with at least one) and frame. -/
def Obligations.FeedLastOperation : Prop :=
  (∀ (dv : DecodeVector) (b : Byte), dv &&& 0xEC#8 = 0x2C#8 → decode [dv, b] = .ok (.feedLast b, [])) ∧
  (∀ (s : State) (b : Byte), s.accLen.toNat < 65535 → ∃ t, exec (.feedLast b) s = .next t ∧
    t.accMem.read s.accLen.toNat = some b ∧
    (∀ a, a ≠ s.accLen.toNat → t.accMem.read a = s.accMem.read a) ∧
    t.accLen = 0 ∧ t.declValid = false ∧ t.declLen = 0 ∧ t.frameLen = s.declLen ∧ t.doneQ = true ∧
    t.pixIdx = s.pixIdx ∧
    (s.declLen.toNat / 3 = 0 → t.phase = .awaitLen) ∧
    (s.declLen.toNat / 3 ≠ 0 → t.phase = .emit) ∧
    t.trace = s.trace ++ [.byteAccepted b, .frameDone s.declLen])

/-- R142: EMIT_WAIT, its encoding, `done_q <- 0`, nothing else changes, and the presented colour stays. -/
def Obligations.EmitWaitOperation : Prop :=
  (∀ (dv : DecodeVector) (d : Byte), dv &&& 0xE2#8 = 0x40#8 → decode [dv, d] = .ok (.emitWait, [d])) ∧
  (∀ s : State, ∃ t, exec .emitWait s = .next t ∧
    t.doneQ = false ∧ t.pxColor = s.pxColor ∧ t.pxValid = s.pxValid ∧
    t.phase = s.phase ∧ t.accLen = s.accLen ∧ t.declValid = s.declValid ∧ t.declLen = s.declLen ∧
    t.frameLen = s.frameLen ∧ t.pixIdx = s.pixIdx ∧ (∀ a, t.accMem.read a = s.accMem.read a) ∧ t.trace = s.trace)

/-- R143: EMIT_PIX, its encoding, result and frame, for every state whose three cells exist; under the invariant
the three cells are written bytes of the frame. -/
def Obligations.EmitPixOperation : Prop :=
  (∀ (dv : DecodeVector) (d : Byte), dv &&& 0xE3#8 = 0x42#8 → decode [dv, d] = .ok (.emitPix, [d])) ∧
  (∀ s : State, 3 * s.pixIdx.toNat + 2 < 65535 → ∃ t, exec .emitPix s = .next t ∧
    t.trace = s.trace ++ [.pixelEmitted (color
      ⟨s.cell (3 * s.pixIdx.toNat), s.cell (3 * s.pixIdx.toNat + 1), s.cell (3 * s.pixIdx.toNat + 2)⟩)] ∧
    t.pixIdx.toNat = s.pixIdx.toNat + 1 ∧ t.doneQ = false ∧
    t.phase = s.phase ∧ t.accLen = s.accLen ∧ t.declValid = s.declValid ∧ t.declLen = s.declLen ∧
    t.frameLen = s.frameLen ∧ (∀ a, t.accMem.read a = s.accMem.read a)) ∧
  (∀ s : State, s.Inv → s.phase = .emit → 3 * s.pixIdx.toNat + 2 ≤ 3 * (s.frameLen.toNat / 3) - 1 ∧
    ∀ k, k < 3 → (s.accMem.read (3 * s.pixIdx.toNat + k)).isSome)

/-- R144: EMIT_LAST, its encoding, result and frame, for every state whose three cells exist. -/
def Obligations.EmitLastOperation : Prop :=
  (∀ (dv : DecodeVector) (d : Byte), dv &&& 0xE3#8 = 0x43#8 → decode [dv, d] = .ok (.emitLast, [d])) ∧
  (∀ s : State, 3 * s.pixIdx.toNat + 2 < 65535 → ∃ t, exec .emitLast s = .next t ∧
    t.trace = s.trace ++ [.pixelEmitted (color
      ⟨s.cell (3 * s.pixIdx.toNat), s.cell (3 * s.pixIdx.toNat + 1), s.cell (3 * s.pixIdx.toNat + 2)⟩)] ∧
    t.pixIdx = 0 ∧ t.phase = .awaitLen ∧ t.doneQ = false ∧
    (t.endCycle.pins.rst = false → t.endCycle.inReady = true) ∧
    t.accLen = s.accLen ∧ t.declValid = s.declValid ∧ t.declLen = s.declLen ∧
    t.frameLen = s.frameLen ∧ (∀ a, t.accMem.read a = s.accMem.read a))

/-- R171: ILLEGAL, its encoding; it raises `IllegalPhase(phase)`, and a cycle with `phase = 11` and no reset stops
the run so. -/
def Obligations.IllegalRaisesIllegalPhase : Prop :=
  (∀ (dv : DecodeVector) (d : Byte), dv &&& 0xE0#8 = 0x60#8 → decode [dv, d] = .ok (.illegal, [d])) ∧
  (∀ s : State, exec .illegal s = .fault (.illegalPhase s.phase.code)) ∧
  (∀ s : State, s.phase = .reserved → s.pins.rst = false → step s = .fault (.illegalPhase 0b11#2))

/-- R50 and the model's choice of log entry 6: an operation stops where a cell it uses does not exist, and nowhere
else but for ILLEGAL. -/
def Obligations.OperationsStopOnlyAtMissingCells : Prop :=
  ∀ (i : Instr) (s : State) (f : Fault), exec i s = .fault f ↔
    (i = .illegal ∧ f = .illegalPhase s.phase.code) ∨
    (i.op ∈ [Op.feedHdrLo, .feedHdrHi, .feedPay, .feedLast] ∧ s.accLen.toNat = 65535 ∧ f = .noSuchCell 65535) ∨
    (i.op ∈ [Op.emitPix, .emitLast] ∧ 21845 ≤ s.pixIdx.toNat ∧ f = .noSuchCell (3 * s.pixIdx.toNat))

/-- R172: with ACC_CAPACITY = 65535 the refusal of a header cannot occur; nothing else refuses. -/
def Obligations.NothingIsRefused : Prop :=
  (∀ (i : Instr) (s : State) (r : Refusal), exec i s ≠ .refused r) ∧
  (∀ (s : State) (r : Refusal), step s ≠ .refused r)

/-- No operation touches the port values to come or the cycle number (the model's own fields, log entries 1 and
3), and each only lengthens the trace (R11). -/
def Obligations.OperationsLeaveThePortsAlone : Prop :=
  ∀ (i : Instr) (s t : State), exec i s = .next t →
    t.inputs = s.inputs ∧ t.cycle = s.cycle ∧ ∃ es, t.trace = s.trace ++ es

/-- 10_state.md, the overview's column "written by": which operations can change each register (R32 for the
flag `decl_valid`). -/
def Obligations.OnlyTheListedOperationsWriteEachRegister : Prop :=
  ∀ (i : Instr) (s t : State), exec i s = .next t →
    (t.phase ≠ s.phase → i.op ∈ [Op.feedHdrHi, .feedLast, .emitLast, .reset]) ∧
    (t.accLen ≠ s.accLen → i.op ∈ [Op.feedHdrLo, .feedHdrHi, .feedPay, .feedLast, .reset]) ∧
    (t.accMem ≠ s.accMem → i.op ∈ [Op.feedHdrLo, .feedHdrHi, .feedPay, .feedLast]) ∧
    (t.declValid ≠ s.declValid ∨ t.declLen ≠ s.declLen → i.op ∈ [Op.feedHdrHi, .feedLast, .reset]) ∧
    (t.frameLen ≠ s.frameLen → i.op ∈ [Op.feedHdrHi, .feedLast, .reset]) ∧
    (t.pixIdx ≠ s.pixIdx → i.op ∈ [Op.emitPix, .emitLast, .reset])

/-! ### Operand assembly and packing -/

/-- R72: the header's value is its two bytes, little-endian; every value is some header's; and FEED_HDR_HI makes
`MemRead(0, 1)` and its own byte the Declared Length. -/
def Obligations.HeaderIsLittleEndian : Prop :=
  (∀ b0 b1 : Byte, headerLength b0 b1 = b0.setWidth 16 + (b1.setWidth 16 <<< 8) ∧
    headerLength b0 b1 = b1 ++ b0 ∧ (headerLength b0 b1).toNat = b0.toNat + 256 * b1.toNat) ∧
  (∀ L : Len, ∃ b0 b1, headerLength b0 b1 = L) ∧
  (∀ (s t : State) (b : Byte), exec (.feedHdrHi b) s = .next t → t.declLen = headerLength (s.cell 0) b)

/-- R141: the colour word's two forms, and the fields being disjoint. -/
def Obligations.ColorWordIsGreenBlueRed : Prop :=
  ∀ p : Pixel,
    color p = (p.g.setWidth 24 <<< 16) ||| (p.b.setWidth 24 <<< 8) ||| p.r.setWidth 24 ∧
    color p = p.g ++ p.b ++ p.r ∧
    color p = (p.g.setWidth 24 <<< 16) + (p.b.setWidth 24 <<< 8) + p.r.setWidth 24 ∧
    (color p).extractLsb 23 16 = p.g ∧ (color p).extractLsb 15 8 = p.b ∧ (color p).extractLsb 7 0 = p.r

/-- R140: `pixels(f)` has `L div 3` pixels, pixel `i` is bytes `3i`, `3i+1`, `3i+2`, and the last `L mod 3` bytes
make no difference. -/
def Obligations.PixelsAreConsecutiveTriples : Prop :=
  (∀ f : List Byte, (pixels f).length = f.length / 3) ∧
  (∀ (f : List Byte) (i : Nat), i < f.length / 3 → ∃ r g b,
    f[3 * i]? = some r ∧ f[3 * i + 1]? = some g ∧ f[3 * i + 2]? = some b ∧ (pixels f)[i]? = some ⟨r, g, b⟩) ∧
  (∀ f : List Byte, pixels f = pixels (f.take (3 * (f.length / 3)))) ∧
  (∀ f : List Byte, f.length < 3 → pixels f = [])

/-- R147: the sink adapter's word is the colour word shifted left by 8, `{G, B, R, 8'h00}`. -/
def Obligations.SinkWordIsShiftedByEight : Prop :=
  (∀ c : Color, sinkWord c = c.setWidth 32 <<< 8) ∧
  (∀ p : Pixel, sinkWord (color p) = p.g ++ p.b ++ p.r ++ 0x00#8)

/-- R100: the four outcomes of `feed`, with step 3 tested after step 2 in the same call (90_conflicts.md C1). -/
def Obligations.FeedHasFourOutcomes : Prop :=
  (∀ b : Byte, Decoder.feed ⟨[], none⟩ b = (⟨[b], none⟩, none)) ∧
  (∀ b0 b1 : Byte, Decoder.feed ⟨[b0], none⟩ b1 =
    if headerLength b0 b1 = 0 then (⟨[], none⟩, some []) else (⟨[], some (headerLength b0 b1)⟩, none)) ∧
  (∀ (acc : List Byte) (L : Len) (b : Byte), acc.length + 1 = L.toNat →
    Decoder.feed ⟨acc, some L⟩ b = (⟨[], none⟩, some (acc ++ [b]))) ∧
  (∀ (acc : List Byte) (L : Len) (b : Byte), acc.length + 1 ≠ L.toNat →
    Decoder.feed ⟨acc, some L⟩ b = (⟨acc ++ [b], some L⟩, none))

/-! ### Ports -/

/-- R35: the output equations; `px_color` does not depend on `px_ready` and `in_ready` not on `in_valid`. Outside
EMIT nothing is said of `px_color` ("any value"). -/
def Obligations.OutputsFollowTheirEquations : Prop :=
  (∀ s : State,
    (s.inReady = true ↔ s.pins.rst = false ∧ (s.phase = .awaitLen ∨ s.phase = .awaitPay)) ∧
    (s.pxValid = true ↔ s.pins.rst = false ∧ s.phase = .emit) ∧
    (s.phase = .emit → ∀ r g b, memRead s (3 * s.pixIdx.toNat) = .ok r → memRead s (3 * s.pixIdx.toNat + 1) = .ok g →
      memRead s (3 * s.pixIdx.toNat + 2) = .ok b → s.pxColor = .ok (color ⟨r, g, b⟩)) ∧
    s.frameDone = s.doneQ ∧
    s.status = ⟨s.phase.code, s.accLen, BitVec.ofBool s.declValid, s.declLen, s.frameLen, s.pixIdx⟩) ∧
  (∀ (s : State) (p : Pins) (v : Bool),
    (s.withPins p).pxColor = (s.withPins { p with pxReady := v }).pxColor ∧
    (s.withPins p).inReady = (s.withPins { p with inValid := v }).inReady)

/-- R34, R174 (b): a cycle has a byte transfer exactly where a FEED operation is selected, a pixel transfer exactly
where EMIT_PIX or EMIT_LAST is, and never both. -/
def Obligations.TransfersAreTheFeedAndEmitOperations : Prop :=
  ∀ (s : State) (i : Instr) (rest : List Byte), decode s.fetchBytes = .ok (i, rest) →
    (s.byteTransfer = true ↔ i.op ∈ [Op.feedHdrLo, .feedHdrHi, .feedPay, .feedLast]) ∧
    (s.pixelTransfer = true ↔ i.op ∈ [Op.emitPix, .emitLast]) ∧
    ¬(s.byteTransfer = true ∧ s.pixelTransfer = true)

/-- R11, R34, R174: the events of one cycle, in order, from the transfers of the cycle. -/
def Obligations.CycleEventsFollowTheTransfers : Prop :=
  ∀ s t : State, step s = .next t → ∃ es, t.trace = s.trace ++ es ∧
    (s.pins.rst = true → es = [.reset]) ∧
    (s.byteTransfer = true → es = [.byteAccepted s.pins.inData] ∨
      ∃ n, es = [.byteAccepted s.pins.inData, .frameDone n] ∧ t.frameLen = n) ∧
    (s.pixelTransfer = true → ∃ c, s.pxColor = .ok c ∧ es = [.pixelEmitted c]) ∧
    (s.pins.rst = false → s.byteTransfer = false → s.pixelTransfer = false → es = [])

/-- R51: a byte transfer writes exactly one cell, at index `acc_len`, with the accepted byte, and that index is
below the capacity; a cycle without one writes no cell. -/
def Obligations.ByteTransferWritesExactlyOneCell : Prop :=
  (∀ s t : State, step s = .next t → s.byteTransfer = true →
    t.accMem.read s.accLen.toNat = some s.pins.inData ∧
    ∀ a, a ≠ s.accLen.toNat → t.accMem.read a = s.accMem.read a) ∧
  (∀ s t : State, step s = .next t → s.byteTransfer = false → ∀ a, t.accMem.read a = s.accMem.read a) ∧
  (∀ s : State, s.Inv → s.byteTransfer = true → s.accLen.toNat < 65535)

/-- R26: after a step `done_q` is 1 exactly where a frame completed in the cycle, it drives `frame_done`, and it is
0 at reset. -/
def Obligations.DonePulseMarksFrameCompletion : Prop :=
  (∀ s t : State, step s = .next t →
    (t.doneQ = true ↔ ∃ n, Event.frameDone n ∈ t.trace.drop s.trace.length)) ∧
  (∀ s : State, s.frameDone = s.doneQ) ∧
  State.reset.doneQ = false

/-- R60 (c), R205: in EMIT, without reset, no byte is accepted and the frame's cells and length are kept. -/
def Obligations.EmitAcceptsNoByte : Prop :=
  ∀ s t : State, s.phase = .emit → s.pins.rst = false → step s = .next t →
    s.inReady = false ∧ bytesOf t.trace = bytesOf s.trace ∧ (∀ a, t.accMem.read a = s.accMem.read a) ∧
    t.frameLen = s.frameLen ∧ t.frameBytes = s.frameBytes

/-! ### Invariants -/

/-- R20 to R26, R33: the registers at reset, and the status port's fields; R202: the invariants hold there. That
no cell is listed and no port value is given is the model's choice (log entries 1 and 5). -/
def Obligations.ResetStateHoldsSpecValuesAndInvariant : Prop :=
  State.reset.phase = .awaitLen ∧ State.reset.accLen = 0 ∧ State.reset.declValid = false ∧
  State.reset.declLen = 0 ∧ State.reset.frameLen = 0 ∧ State.reset.pixIdx = 0 ∧ State.reset.doneQ = false ∧
  State.reset.status = ⟨0, 0, 0, 0, 0, 0⟩ ∧ State.reset.Inv

/-- At reset, and with any port values to come, the trace says of the state what `TraceInv` states. The empty trace
is the model's choice (log entry 4). -/
def Obligations.ResetStateAgreesWithItsTrace : Prop :=
  ∀ ports : List Pins, ({ State.reset with inputs := ports } : State).TraceInv

/-- R20, R28, R29, R30, R31: every step keeps the invariant of the registers and cells. -/
def Obligations.StepKeepsTheInvariant : Prop :=
  ∀ s t : State, s.Inv → step s = .next t → t.Inv

/-- R24, R28 to R30, R106, R107, R146: every step keeps the agreement of trace and state: the framing events are
those of `feed`, the Accumulator is the decoder's, and the pixels are emitted once, in order. -/
def Obligations.StepKeepsTraceAgreement : Prop :=
  ∀ s t : State, s.Inv → s.TraceInv → step s = .next t → t.TraceInv

/-- R170: from every state that meets the invariant, whatever the ports carry, a step gives a next state. -/
def Obligations.NoInputStopsTheBlock : Prop :=
  ∀ (s : State) (p : Pins), s.Inv → (s.withPins p).SafeStep ∧ s.SafeStep

/-- R22, R50: every operation keeps the accumulator's cells in canonical form, inside ACC, from any state in which
they are so. -/
def Obligations.OperationsKeepTheMemoryCanonical : Prop :=
  ∀ (i : Instr) (s t : State), s.accMem.wf = true → exec i s = .next t →
    t.accMem.wf = true ∧ ∀ a, 65535 ≤ a → t.accMem.read a = none

/-- R20: "No operation writes `11`": a step from a legal phase never leads to the reserved one. -/
def Obligations.ReservedPhaseIsNeverWritten : Prop :=
  ∀ s t : State, step s = .next t → t.phase ≠ .reserved

/-- R25, R27, R31: under the invariant the counters do not wrap, `pix_idx` is at most 21844 and 0 outside EMIT, and
the Accumulator, also after the append of a byte, is never longer than the larger of 2 and the Declared
Length. -/
def Obligations.CountersStayBounded : Prop :=
  ∀ s : State, s.Inv →
    s.pixIdx.toNat ≤ 21844 ∧ (s.phase ≠ .emit → s.pixIdx = 0) ∧
    s.accLen.toNat + 1 < 65536 ∧ s.accumulator.length ≤ max 2 s.declLen.toNat ∧
    (s.phase ≠ .emit → s.accumulator.length + 1 ≤ max 2 s.declLen.toNat) ∧
    (s.phase = .emit → 3 * s.pixIdx.toNat + 2 < s.frameLen.toNat)

/-- R170, R202: every state of every run that begins with RESET, whatever the ports carry, meets the invariants and
steps on: no fault and no refusal is ever reached. It is about runs: StepKeepsTheInvariant, StepKeepsTraceAgreement
and NoInputStopsTheBlock say the same of one step from any state. -/
def Obligations.ReachableStatesAreSafe : Prop :=
  ∀ s : State, Reachable s → s.Inv ∧ s.TraceInv ∧ s.SafeStep

/-- R107: the pauses and stalls of a run change nothing of the decoding: two runs that have accepted the same bytes
since their last reset agree on the framing events, the Accumulator, the Declared Length, the completed frame's
length, and the pixels emitted and pending. It is about runs; StepKeepsTraceAgreement is the one-step form. -/
def Obligations.PausesDoNotChangeTheDecoding : Prop :=
  ∀ s s' : State, Reachable s → Reachable s' →
    bytesOf (sinceReset s.trace) = bytesOf (sinceReset s'.trace) →
    framingOf (sinceReset s.trace) = framingOf (sinceReset s'.trace) ∧
    s.accumulator = s'.accumulator ∧ s.declared = s'.declared ∧ s.frameLen = s'.frameLen ∧
    colorsOf (sinceReset s.trace) ++ s.pending = colorsOf (sinceReset s'.trace) ++ s'.pending

/-- R36, R108, R201: only an accepted byte or RESET changes the framing position, and how each moves it. -/
def Obligations.OnlyAcceptedBytesAndResetMoveTheFraming : Prop :=
  ∀ s t : State, s.Inv → step s = .next t →
    (s.pins.rst = true → t.framing = some .headerLow) ∧
    (s.pins.rst = false → s.byteTransfer = false → t.framing = s.framing) ∧
    (s.byteTransfer = true →
      (s.framing = some .headerLow → t.framing = some .headerHigh) ∧
      (s.framing = some .headerHigh → headerLength (s.cell 0) s.pins.inData = 0 → t.framing = some .headerLow) ∧
      (s.framing = some .headerHigh → headerLength (s.cell 0) s.pins.inData ≠ 0 →
        t.framing = some (.payload (headerLength (s.cell 0) s.pins.inData).toNat)) ∧
      (s.framing = some (.payload 1) → t.framing = some .headerLow) ∧
      (∀ n, s.framing = some (.payload (n + 2)) → t.framing = some (.payload (n + 1))))

/-! ### Runs of several cycles -/

/-- R101, R182: any number of cycles without a byte, outside EMIT, change nothing but `done_q`. -/
def Obligations.IdleCyclesChangeNothing : Prop :=
  ∀ (ps rest : List Pins) (s : State), s.phase = .awaitLen ∨ s.phase = .awaitPay → s.inputs = ps ++ rest →
    (∀ p, p ∈ ps → p.rst = false ∧ p.inValid = false) →
    run ps.length s = .next { s with
      doneQ := if ps = [] then s.doneQ else false, inputs := rest, cycle := s.cycle + ps.length }

/-- R145: while the sink does not take the presented word and no reset comes, the word stays the same and stays
presented, however many cycles pass. -/
def Obligations.PresentedColorIsStable : Prop :=
  ∀ (ps : List Pins) (p : Pins) (rest : List Pins) (s : State), s.phase = .emit → s.inputs = ps ++ p :: rest →
    (∀ q, q ∈ ps → q.rst = false ∧ q.pxReady = false) → p.rst = false →
    ∃ t, run ps.length s = .next t ∧ t.pxColor = s.pxColor ∧ t.pxValid = true ∧ t.pixIdx = s.pixIdx ∧
      t.inputs = p :: rest

/-- R146: from a state in EMIT, with a sink that takes a word in every cycle, the pixels not yet taken are emitted in
frame order, and the block is back in AWAIT_LEN. That this takes one cycle a pixel is a choice, not the source's: "exact
timing is not a contract" (R208, decision D19), and the model's step is one cycle (log entry 18). -/
def Obligations.ReadySinkGetsTheWholeFrame : Prop :=
  ∀ (ps rest : List Pins) (s : State), s.Inv → s.phase = .emit → s.inputs = ps ++ rest →
    (∀ p, p ∈ ps → p.rst = false ∧ p.pxReady = true) →
    ps.length = s.frameLen.toNat / 3 - s.pixIdx.toNat →
    ∃ t, run ps.length s = .next t ∧
      t.trace = s.trace ++ ((frameColors s.frameBytes).drop s.pixIdx.toNat).map .pixelEmitted ∧
      t.phase = .awaitLen ∧ t.pixIdx = 0 ∧ t.accLen = 0 ∧ t.declValid = false ∧ t.frameLen = s.frameLen ∧
      (∀ a, t.accMem.read a = s.accMem.read a) ∧ t.inputs = rest

/-- R79: what each directive of the stimulus notation expands to. -/
def Obligations.DirectivesExpandToTheirBytes : Prop :=
  (∀ bytes : List Byte, expand (.byte bytes) = bytes.map .byte) ∧
  (∀ f : List Byte, (Directive.frame f).wf = true → ∃ lo hi, headerLength lo hi = BitVec.ofNat 16 f.length ∧
    (headerLength lo hi).toNat = f.length ∧ expand (.frame f) = (lo :: hi :: f).map .byte) ∧
  (∀ ps : List Pixel, expand (.pixels ps) = expand (.frame (ps.flatMap Pixel.bytes))) ∧
  (∀ n : Nat, expand (.idle n) = List.replicate n .idle) ∧
  expand .reset = [.reset]

/-- R178, R205: the byte source keeps an offered byte while the block is in EMIT, and a byte offered while the block
awaits one is consumed and not offered again. -/
def Obligations.SourceKeepsAByteUntilItIsAccepted : Prop :=
  ∀ (b b' : Bench) (s t : State) (d : Byte) (rest : List SourceItem), b.source = .byte d :: rest →
    benchStep b s = .next (b', t) →
    (s.phase = .emit → b'.source = .byte d :: rest ∧ bytesOf t.trace = bytesOf s.trace) ∧
    (s.phase = .awaitLen ∨ s.phase = .awaitPay →
      b'.source = rest ∧ bytesOf t.trace = bytesOf s.trace ++ [d])

/-- R148 where the source never pauses and the sink is always ready: the message (R79) of any list of at most 21845
pixels, offered to a block that awaits a header, is emitted as the colours of those pixels, in order, and the block is
back in AWAIT_LEN. The number of cycles is a choice, not the source's (R208, decision D19; log entry 18).
PixelMessageSurvivesPausesAndStalls is R148 with pauses and stalls, and counts no cycles. -/
def Obligations.PixelMessageRoundTrip : Prop :=
  ∀ (ps : List Pixel) (s : State), ps.length ≤ 21845 → s.Inv → s.phase = .awaitLen → s.accLen = 0 →
    ∃ b t, benchRun (2 + 3 * ps.length + ps.length) (Bench.ofProgram [.pixels ps] []) s = .next (b, t) ∧
      colorsOf t.trace = colorsOf s.trace ++ ps.map color ∧
      t.phase = .awaitLen ∧ t.accLen = 0 ∧ t.declValid = false ∧ b.source = []

/-- R148 under any pauses and stalls: a source that offers the message (R79) of at most 21845 pixels with idle cycles
anywhere among its bytes, and keeps each byte until it is accepted (R178), and a sink that stalls by any schedule and is
ready once it has ended (R79, R179), give exactly the colours of those pixels, in order. At every time a beginning of
that sequence has been emitted, and from some time on all of it; the block is then back in AWAIT_LEN and the message is
used up. For no pixels the block never leaves AWAIT_LEN. The block awaits a header's first byte, so that the message is
aligned (R203). -/
def Obligations.PixelMessageSurvivesPausesAndStalls : Prop :=
  ∀ (ps : List Pixel) (source : List SourceItem) (sink : List Bool) (s : State),
    ps.length ≤ 21845 → s.Inv → s.phase = .awaitLen → s.accLen = 0 →
    source.filter (fun item => item ≠ .idle) = expand (.pixels ps) →
    (∀ n, ∃ b t m, benchRun n ⟨source, sink⟩ s = .next (b, t) ∧
      colorsOf t.trace = colorsOf s.trace ++ (ps.map color).take m ∧ (ps = [] → t.phase = .awaitLen)) ∧
    ∃ enough, ∀ n, enough ≤ n → ∃ b t, benchRun n ⟨source, sink⟩ s = .next (b, t) ∧ b.source = [] ∧
      colorsOf t.trace = colorsOf s.trace ++ ps.map color ∧ t.phase = .awaitLen ∧ t.accLen = 0 ∧
      t.declValid = false
end

