-- ==== Sys2Proof/Laws/Memory.lean ====
section
/-! SUPPORT. Reading and writing the accumulator's cells, and the canonical form (20_memory.md rules R50 to
R52). -/

namespace Sys2Proof.Machine

@[simp] theorem AccMem.read_nil (i : Nat) : AccMem.read [] i = none := rfl

theorem AccMem.read_cons (j : Nat) (v : Byte) (rest : AccMem) (i : Nat) :
    AccMem.read ((j, v) :: rest) i = if i = j then some v else AccMem.read rest i := rfl

@[simp] theorem AccMem.read_write_same (m : AccMem) (i : Nat) (v : Byte) : (m.write i v).read i = some v := by
  induction m with
  | nil => simp [AccMem.write, AccMem.read_cons]
  | cons c rest ih =>
    obtain ⟨j, u⟩ := c
    rw [AccMem.write]
    split
    · simp [AccMem.read_cons]
    · split
      · simp [AccMem.read_cons]
      · simp [AccMem.read_cons, *]

theorem AccMem.read_write_other (m : AccMem) {i k : Nat} (v : Byte) (h : k ≠ i) :
    (m.write i v).read k = m.read k := by
  induction m with
  | nil => simp [AccMem.write, AccMem.read_cons, h]
  | cons c rest ih =>
    obtain ⟨j, u⟩ := c
    rw [AccMem.write]
    split
    · simp [AccMem.read_cons, h]
    · split
      · subst_vars; simp [AccMem.read_cons, h]
      · simp [AccMem.read_cons, ih]

theorem AccMem.read_write (m : AccMem) (i k : Nat) (v : Byte) :
    (m.write i v).read k = if k = i then some v else m.read k := by
  split
  · subst_vars; exact m.read_write_same _ v
  · exact m.read_write_other v ‹_›

theorem AccMem.wfFrom_cons (low j : Nat) (v : Byte) (rest : AccMem) :
    AccMem.wfFrom low ((j, v) :: rest) = true ↔
      low ≤ j ∧ j < Config.accCapacity ∧ AccMem.wfFrom (j + 1) rest = true := by
  simp [AccMem.wfFrom, and_assoc]

theorem AccMem.wfFrom_write (m : AccMem) {low i : Nat} (v : Byte) (hm : m.wfFrom low = true)
    (hlow : low ≤ i) (hi : i < Config.accCapacity) : (m.write i v).wfFrom low = true := by
  induction m generalizing low with
  | nil => simpa [AccMem.write, AccMem.wfFrom] using ⟨hlow, hi⟩
  | cons c rest ih =>
    obtain ⟨j, u⟩ := c
    rw [AccMem.wfFrom_cons] at hm
    rw [AccMem.write]
    split
    · simp only [AccMem.wfFrom_cons]
      exact ⟨hlow, hi, by omega, hm.2.1, hm.2.2⟩
    · split
      · subst_vars
        simp only [AccMem.wfFrom_cons]
        exact hm
      · simp only [AccMem.wfFrom_cons]
        exact ⟨hm.1, hm.2.1, ih hm.2.2 (by omega)⟩

/-- A write inside ACC keeps the canonical form. -/
theorem AccMem.wf_write (m : AccMem) {i : Nat} (v : Byte) (hm : m.wf = true) (hi : i < Config.accCapacity) :
    (m.write i v).wf = true :=
  m.wfFrom_write v hm (Nat.zero_le i) hi

@[simp] theorem AccMem.wf_nil : AccMem.wf [] = true := rfl

/-- Below the first index there is nothing. -/
theorem AccMem.read_below (m : AccMem) {low i : Nat} (hm : m.wfFrom low = true) (h : i < low) :
    m.read i = none := by
  induction m generalizing low with
  | nil => rfl
  | cons c rest ih =>
    obtain ⟨j, u⟩ := c
    rw [AccMem.wfFrom_cons] at hm
    rw [AccMem.read_cons, if_neg (by omega)]
    exact ih hm.2.2 (by omega)

/-- Nothing is listed outside ACC. -/
theorem AccMem.read_outside (m : AccMem) {low i : Nat} (hm : m.wfFrom low = true) (h : Config.accCapacity ≤ i) :
    m.read i = none := by
  induction m generalizing low with
  | nil => rfl
  | cons c rest ih =>
    obtain ⟨j, u⟩ := c
    rw [AccMem.wfFrom_cons] at hm
    rw [AccMem.read_cons, if_neg (by omega)]
    exact ih hm.2.2

theorem AccMem.ext_wfFrom {m m' : AccMem} {low : Nat} (hm : m.wfFrom low = true) (hm' : m'.wfFrom low = true)
    (h : ∀ i, m.read i = m'.read i) : m = m' := by
  induction m generalizing m' low with
  | nil =>
    cases m' with
    | nil => rfl
    | cons c rest => obtain ⟨j, u⟩ := c; simpa [AccMem.read_cons] using h j
  | cons c rest ih =>
    obtain ⟨j, u⟩ := c
    cases m' with
    | nil => simpa [AccMem.read_cons] using h j
    | cons c' rest' =>
      obtain ⟨j', u'⟩ := c'
      rw [AccMem.wfFrom_cons] at hm hm'
      have e : j = j' := by
        have h1 := h j
        have h2 := h j'
        rw [AccMem.read_cons, AccMem.read_cons] at h1 h2
        rcases Nat.lt_trichotomy j j' with hlt | heq | hgt
        · rw [if_pos rfl, if_neg (by omega), AccMem.read_below rest' hm'.2.2 (by omega)] at h1
          cases h1
        · exact heq
        · rw [if_pos rfl, if_neg (by omega), AccMem.read_below rest hm.2.2 (by omega)] at h2
          cases h2
      subst e
      have hu := h j
      simp only [AccMem.read_cons, if_true, Option.some.injEq] at hu
      subst hu
      refine congrArg _ (ih hm.2.2 hm'.2.2 fun i => ?_)
      by_cases hi : i ≤ j
      · rw [AccMem.read_below rest hm.2.2 (by omega), AccMem.read_below rest' hm'.2.2 (by omega)]
      · have hi' := h i
        rwa [AccMem.read_cons, AccMem.read_cons, if_neg (by omega), if_neg (by omega)] at hi'

/-- Memories in canonical form that read alike are equal data. -/
theorem AccMem.eq_of_reads {m m' : AccMem} (hm : m.wf = true) (hm' : m'.wf = true)
    (h : ∀ i, m.read i = m'.read i) : m = m' :=
  AccMem.ext_wfFrom hm hm' h

end Sys2Proof.Machine
end

