-- ==== Sys2Proof/Laws/State.lean ====
section
/-! SUPPORT. What each named update of the state does to each field: one lemma per field per update. -/

namespace Sys2Proof.Machine

variable (s : State)

@[simp] theorem State.withDone_phase (d : Bool) : (s.withDone d).phase = s.phase := rfl
@[simp] theorem State.withDone_accLen (d : Bool) : (s.withDone d).accLen = s.accLen := rfl
@[simp] theorem State.withDone_accMem (d : Bool) : (s.withDone d).accMem = s.accMem := rfl
@[simp] theorem State.withDone_declValid (d : Bool) : (s.withDone d).declValid = s.declValid := rfl
@[simp] theorem State.withDone_declLen (d : Bool) : (s.withDone d).declLen = s.declLen := rfl
@[simp] theorem State.withDone_frameLen (d : Bool) : (s.withDone d).frameLen = s.frameLen := rfl
@[simp] theorem State.withDone_pixIdx (d : Bool) : (s.withDone d).pixIdx = s.pixIdx := rfl
@[simp] theorem State.withDone_doneQ (d : Bool) : (s.withDone d).doneQ = d := rfl
@[simp] theorem State.withDone_inputs (d : Bool) : (s.withDone d).inputs = s.inputs := rfl
@[simp] theorem State.withDone_cycle (d : Bool) : (s.withDone d).cycle = s.cycle := rfl
@[simp] theorem State.withDone_trace (d : Bool) : (s.withDone d).trace = s.trace := rfl

@[simp] theorem State.clearDecl_phase : (s.clearDecl).phase = s.phase := rfl
@[simp] theorem State.clearDecl_accLen : (s.clearDecl).accLen = s.accLen := rfl
@[simp] theorem State.clearDecl_accMem : (s.clearDecl).accMem = s.accMem := rfl
@[simp] theorem State.clearDecl_declValid : (s.clearDecl).declValid = false := rfl
@[simp] theorem State.clearDecl_declLen : (s.clearDecl).declLen = 0 := rfl
@[simp] theorem State.clearDecl_frameLen : (s.clearDecl).frameLen = s.frameLen := rfl
@[simp] theorem State.clearDecl_pixIdx : (s.clearDecl).pixIdx = s.pixIdx := rfl
@[simp] theorem State.clearDecl_doneQ : (s.clearDecl).doneQ = s.doneQ := rfl
@[simp] theorem State.clearDecl_inputs : (s.clearDecl).inputs = s.inputs := rfl
@[simp] theorem State.clearDecl_cycle : (s.clearDecl).cycle = s.cycle := rfl
@[simp] theorem State.clearDecl_trace : (s.clearDecl).trace = s.trace := rfl

@[simp] theorem State.declare_phase (len : Len) : (s.declare len).phase = s.phase := rfl
@[simp] theorem State.declare_accLen (len : Len) : (s.declare len).accLen = s.accLen := rfl
@[simp] theorem State.declare_accMem (len : Len) : (s.declare len).accMem = s.accMem := rfl
@[simp] theorem State.declare_declValid (len : Len) : (s.declare len).declValid = declValidAfterHeader len := rfl
@[simp] theorem State.declare_declLen (len : Len) : (s.declare len).declLen = len := rfl
@[simp] theorem State.declare_frameLen (len : Len) : (s.declare len).frameLen = s.frameLen := rfl
@[simp] theorem State.declare_pixIdx (len : Len) : (s.declare len).pixIdx = s.pixIdx := rfl
@[simp] theorem State.declare_doneQ (len : Len) : (s.declare len).doneQ = s.doneQ := rfl
@[simp] theorem State.declare_inputs (len : Len) : (s.declare len).inputs = s.inputs := rfl
@[simp] theorem State.declare_cycle (len : Len) : (s.declare len).cycle = s.cycle := rfl
@[simp] theorem State.declare_trace (len : Len) : (s.declare len).trace = s.trace := rfl

@[simp] theorem State.record_phase (e : Event) : (s.record e).phase = s.phase := rfl
@[simp] theorem State.record_accLen (e : Event) : (s.record e).accLen = s.accLen := rfl
@[simp] theorem State.record_accMem (e : Event) : (s.record e).accMem = s.accMem := rfl
@[simp] theorem State.record_declValid (e : Event) : (s.record e).declValid = s.declValid := rfl
@[simp] theorem State.record_declLen (e : Event) : (s.record e).declLen = s.declLen := rfl
@[simp] theorem State.record_frameLen (e : Event) : (s.record e).frameLen = s.frameLen := rfl
@[simp] theorem State.record_pixIdx (e : Event) : (s.record e).pixIdx = s.pixIdx := rfl
@[simp] theorem State.record_doneQ (e : Event) : (s.record e).doneQ = s.doneQ := rfl
@[simp] theorem State.record_inputs (e : Event) : (s.record e).inputs = s.inputs := rfl
@[simp] theorem State.record_cycle (e : Event) : (s.record e).cycle = s.cycle := rfl
@[simp] theorem State.record_trace (e : Event) : (s.record e).trace = s.trace ++ [e] := rfl

@[simp] theorem State.resetRegisters_phase : (s.resetRegisters).phase = .awaitLen := rfl
@[simp] theorem State.resetRegisters_accLen : (s.resetRegisters).accLen = 0 := rfl
@[simp] theorem State.resetRegisters_accMem : (s.resetRegisters).accMem = s.accMem := rfl
@[simp] theorem State.resetRegisters_declValid : (s.resetRegisters).declValid = false := rfl
@[simp] theorem State.resetRegisters_declLen : (s.resetRegisters).declLen = 0 := rfl
@[simp] theorem State.resetRegisters_frameLen : (s.resetRegisters).frameLen = 0 := rfl
@[simp] theorem State.resetRegisters_pixIdx : (s.resetRegisters).pixIdx = 0 := rfl
@[simp] theorem State.resetRegisters_doneQ : (s.resetRegisters).doneQ = false := rfl
@[simp] theorem State.resetRegisters_inputs : (s.resetRegisters).inputs = s.inputs := rfl
@[simp] theorem State.resetRegisters_cycle : (s.resetRegisters).cycle = s.cycle := rfl
@[simp] theorem State.resetRegisters_trace : (s.resetRegisters).trace = s.trace := rfl

@[simp] theorem State.endCycle_phase : (s.endCycle).phase = s.phase := rfl
@[simp] theorem State.endCycle_accLen : (s.endCycle).accLen = s.accLen := rfl
@[simp] theorem State.endCycle_accMem : (s.endCycle).accMem = s.accMem := rfl
@[simp] theorem State.endCycle_declValid : (s.endCycle).declValid = s.declValid := rfl
@[simp] theorem State.endCycle_declLen : (s.endCycle).declLen = s.declLen := rfl
@[simp] theorem State.endCycle_frameLen : (s.endCycle).frameLen = s.frameLen := rfl
@[simp] theorem State.endCycle_pixIdx : (s.endCycle).pixIdx = s.pixIdx := rfl
@[simp] theorem State.endCycle_doneQ : (s.endCycle).doneQ = s.doneQ := rfl
@[simp] theorem State.endCycle_inputs : (s.endCycle).inputs = s.inputs.tail := rfl
@[simp] theorem State.endCycle_cycle : (s.endCycle).cycle = s.cycle + 1 := rfl
@[simp] theorem State.endCycle_trace : (s.endCycle).trace = s.trace := rfl

@[simp] theorem State.withPins_phase (p : Pins) : (s.withPins p).phase = s.phase := rfl
@[simp] theorem State.withPins_accLen (p : Pins) : (s.withPins p).accLen = s.accLen := rfl
@[simp] theorem State.withPins_accMem (p : Pins) : (s.withPins p).accMem = s.accMem := rfl
@[simp] theorem State.withPins_declValid (p : Pins) : (s.withPins p).declValid = s.declValid := rfl
@[simp] theorem State.withPins_declLen (p : Pins) : (s.withPins p).declLen = s.declLen := rfl
@[simp] theorem State.withPins_frameLen (p : Pins) : (s.withPins p).frameLen = s.frameLen := rfl
@[simp] theorem State.withPins_pixIdx (p : Pins) : (s.withPins p).pixIdx = s.pixIdx := rfl
@[simp] theorem State.withPins_doneQ (p : Pins) : (s.withPins p).doneQ = s.doneQ := rfl
@[simp] theorem State.withPins_inputs (p : Pins) : (s.withPins p).inputs = p :: s.inputs.tail := rfl
@[simp] theorem State.withPins_cycle (p : Pins) : (s.withPins p).cycle = s.cycle := rfl
@[simp] theorem State.withPins_trace (p : Pins) : (s.withPins p).trace = s.trace := rfl

end Sys2Proof.Machine
end

