-- ==== Sys2Proof/Laws/Ops.lean ====
section
/-! SUPPORT. What each shared operation can do: one specification lemma for each, which proofs cite instead of
unfolding it. -/

namespace Sys2Proof.Machine

@[simp] theorem orFault_ok {α : Type} (a : α) (k : α → Result) : orFault (.ok a) k = k a := rfl

@[simp] theorem orFault_error {α : Type} (f : Fault) (k : α → Result) : orFault (.error f) k = .fault f := rfl

/-- A next state after `orFault` comes from the continuation. -/
theorem orFault_next {α : Type} {x : Except Fault α} {k : α → Result} {t : State} (h : orFault x k = .next t) :
    ∃ a, x = .ok a ∧ k a = .next t := by
  cases x with
  | ok a => exact ⟨a, rfl, h⟩
  | error f => cases h

/-- A refusal after `orFault` comes from the continuation. -/
theorem orFault_refused {α : Type} {x : Except Fault α} {k : α → Result} {r : Refusal}
    (h : orFault x k = .refused r) : ∃ a, x = .ok a ∧ k a = .refused r := by
  cases x with
  | ok a => exact ⟨a, rfl, h⟩
  | error f => cases h

theorem State.cell_congr {s t : State} {i : Nat} (h : t.accMem.read i = s.accMem.read i) : t.cell i = s.cell i := by
  rw [State.cell, State.cell, h]

theorem State.cell_of_read {s : State} {i : Nat} {v : Byte} (h : s.accMem.read i = some v) : s.cell i = v := by
  rw [State.cell, h]; rfl

theorem memRead_inside (s : State) {i : Nat} (h : i < Config.accCapacity) : memRead s i = .ok (s.cell i) := if_pos h

theorem memRead_outside (s : State) {i : Nat} (h : Config.accCapacity ≤ i) : memRead s i = .error (.noSuchCell i) :=
  if_neg (by omega)

@[simp] theorem memRead_zero (s : State) : memRead s 0 = .ok (s.cell 0) := memRead_inside s (by decide)

/-- What accepting a byte does where the cell exists (R51). -/
theorem acceptByte_inside (s : State) (b : Byte) (h : s.accLen.toNat < Config.accCapacity) :
    acceptByte s b = .ok ({ s with accMem := s.accMem.write s.accLen.toNat b }.record (.byteAccepted b)) := by
  rw [acceptByte, memWrite, if_pos h]

theorem acceptByte_outside (s : State) (b : Byte) (h : Config.accCapacity ≤ s.accLen.toNat) :
    acceptByte s b = .error (.noSuchCell s.accLen.toNat) := by
  rw [acceptByte, memWrite, if_neg (by omega)]

/-- If a byte is accepted, the cell exists and this is the state. -/
theorem acceptByte_ok {s t : State} {b : Byte} (h : acceptByte s b = .ok t) :
    s.accLen.toNat < Config.accCapacity ∧
      t = { s with accMem := s.accMem.write s.accLen.toNat b }.record (.byteAccepted b) := by
  by_cases hin : s.accLen.toNat < Config.accCapacity
  · rw [acceptByte_inside s b hin] at h
    cases h
    exact ⟨hin, rfl⟩
  · rw [acceptByte_outside s b (by omega)] at h
    cases h

/-- The presented pixel where its three cells exist (R143). -/
theorem presentedPixel_inside (s : State) (h : 3 * s.pixIdx.toNat + 2 < Config.accCapacity) :
    presentedPixel s =
      .ok ⟨s.cell (3 * s.pixIdx.toNat), s.cell (3 * s.pixIdx.toNat + 1), s.cell (3 * s.pixIdx.toNat + 2)⟩ := by
  rw [presentedPixel, memRead_inside s (show 3 * s.pixIdx.toNat < _ by omega),
    memRead_inside s (show 3 * s.pixIdx.toNat + 1 < _ by omega), memRead_inside s h]

theorem presentedPixel_outside (s : State) (h : Config.accCapacity ≤ 3 * s.pixIdx.toNat + 2) :
    ∃ i, Config.accCapacity ≤ i ∧ presentedPixel s = .error (.noSuchCell i) := by
  rw [presentedPixel]
  by_cases h0 : 3 * s.pixIdx.toNat < Config.accCapacity
  · rw [memRead_inside s h0]
    by_cases h1 : 3 * s.pixIdx.toNat + 1 < Config.accCapacity
    · rw [memRead_inside s h1, memRead_outside s h]
      exact ⟨_, h, rfl⟩
    · rw [memRead_outside s (show Config.accCapacity ≤ 3 * s.pixIdx.toNat + 1 by omega)]
      exact ⟨_, by omega, rfl⟩
  · rw [memRead_outside s (show Config.accCapacity ≤ 3 * s.pixIdx.toNat by omega)]
    exact ⟨_, by omega, rfl⟩

theorem takePixel_inside (s : State) (h : 3 * s.pixIdx.toNat + 2 < Config.accCapacity) :
    takePixel s = .ok (s.record (.pixelEmitted (color
      ⟨s.cell (3 * s.pixIdx.toNat), s.cell (3 * s.pixIdx.toNat + 1), s.cell (3 * s.pixIdx.toNat + 2)⟩))) := by
  rw [takePixel, presentedPixel_inside s h]

theorem takePixel_outside (s : State) (h : Config.accCapacity ≤ 3 * s.pixIdx.toNat + 2) :
    ∃ i, Config.accCapacity ≤ i ∧ takePixel s = .error (.noSuchCell i) := by
  obtain ⟨i, hi, e⟩ := presentedPixel_outside s h
  exact ⟨i, hi, by rw [takePixel, e]⟩

/-- If a pixel is taken, its three cells exist and this is the state. -/
theorem takePixel_ok {s t : State} (h : takePixel s = .ok t) :
    3 * s.pixIdx.toNat + 2 < Config.accCapacity ∧ t = s.record (.pixelEmitted (color
      ⟨s.cell (3 * s.pixIdx.toNat), s.cell (3 * s.pixIdx.toNat + 1), s.cell (3 * s.pixIdx.toNat + 2)⟩)) := by
  by_cases hin : 3 * s.pixIdx.toNat + 2 < Config.accCapacity
  · rw [takePixel_inside s hin] at h
    cases h
    exact ⟨hin, rfl⟩
  · obtain ⟨i, -, e⟩ := takePixel_outside s (by omega)
    rw [e] at h
    cases h

/-- Every header fits the accumulator of this hardware (R59, R172). -/
@[simp] theorem headerFits_all (len : Len) : headerFits len = true := rfl

@[simp] theorem Phase.ofCode_code (p : Phase) : Phase.ofCode p.code = p := by cases p <;> rfl

@[simp] theorem pixelCount_eq (len : Len) : pixelCount len = len.toNat / 3 := rfl

@[simp] theorem State.pins_of_inputs (s : State) (p : Pins) (ps : List Pins) (h : s.inputs = p :: ps) : s.pins = p := by
  rw [State.pins, h]

@[simp] theorem State.withPins_pins (s : State) (p : Pins) : (s.withPins p).pins = p := rfl

end Sys2Proof.Machine
end

