-- ==== Sys2Proof/Laws/Exec.lean ====
section
/-! SUPPORT. What each meaning answers where the cells it uses exist, and, from a next state, what it did. -/

namespace Sys2Proof.Machine

/-- After `FEED_HDR_HI` knows a zero length (R103). -/
theorem headerDecoded_zero (t : State) : headerDecoded t 0 =
    { t with accLen := 0, declValid := false, declLen := 0, frameLen := 0, phase := .awaitLen, doneQ := true,
             trace := t.trace ++ [.frameDone 0] } := rfl

/-- After `FEED_HDR_HI` knows a length that is not zero (R103). -/
theorem headerDecoded_pos (t : State) {len : Len} (h : len ≠ 0) : headerDecoded t len =
    { t with accLen := 0, declValid := true, declLen := len, phase := .awaitPay, doneQ := false } := by
  have hb : (len == 0) = false := by simpa using h
  simp only [headerDecoded, doneAfterHeader, hb, State.declare, declValidAfterHeader, bne, State.withDone,
    Bool.not_false, Bool.false_eq_true, if_false]

theorem frameCompleted_eq (t : State) (len : Len) : frameCompleted t len =
    { t with accLen := 0, frameLen := len, phase := if pixelCount len = 0 then .awaitLen else .emit,
             declValid := false, declLen := 0, doneQ := true, trace := t.trace ++ [.frameDone len] } := by
  simp only [frameCompleted, State.clearDecl, State.withDone, State.record, beq_iff_eq]

theorem execFeedHdrLo_next {b : Byte} {s t : State} (h : execFeedHdrLo b s = .next t) :
    s.accLen.toNat < Config.accCapacity ∧
      t = { s with accMem := s.accMem.write s.accLen.toNat b, accLen := s.accLen + 1, doneQ := false,
                   trace := s.trace ++ [.byteAccepted b] } := by
  obtain ⟨u, hu, hk⟩ := orFault_next h
  obtain ⟨hin, rfl⟩ := acceptByte_ok hu
  cases hk
  exact ⟨hin, rfl⟩

theorem execFeedPay_next {b : Byte} {s t : State} (h : execFeedPay b s = .next t) :
    s.accLen.toNat < Config.accCapacity ∧
      t = { s with accMem := s.accMem.write s.accLen.toNat b, accLen := s.accLen + 1, doneQ := false,
                   trace := s.trace ++ [.byteAccepted b] } :=
  execFeedHdrLo_next h

theorem execFeedHdrHi_next {b : Byte} {s t : State} (h : execFeedHdrHi b s = .next t) :
    s.accLen.toNat < Config.accCapacity ∧
      t = headerDecoded ({ s with accMem := s.accMem.write s.accLen.toNat b }.record (.byteAccepted b))
        (headerLength (s.cell 0) b) := by
  simp only [execFeedHdrHi, memRead_zero, orFault_ok, headerFits_all, if_true] at h
  obtain ⟨u, hu, hk⟩ := orFault_next h
  obtain ⟨hin, rfl⟩ := acceptByte_ok hu
  cases hk
  exact ⟨hin, rfl⟩

theorem execFeedLast_next {b : Byte} {s t : State} (h : execFeedLast b s = .next t) :
    s.accLen.toNat < Config.accCapacity ∧
      t = frameCompleted ({ s with accMem := s.accMem.write s.accLen.toNat b }.record (.byteAccepted b)) s.declLen := by
  obtain ⟨u, hu, hk⟩ := orFault_next h
  obtain ⟨hin, rfl⟩ := acceptByte_ok hu
  cases hk
  exact ⟨hin, rfl⟩

theorem execEmitPix_next {s t : State} (h : execEmitPix s = .next t) :
    3 * s.pixIdx.toNat + 2 < Config.accCapacity ∧
      t = { s with pixIdx := s.pixIdx + 1, doneQ := false, trace := s.trace ++ [.pixelEmitted (color
        ⟨s.cell (3 * s.pixIdx.toNat), s.cell (3 * s.pixIdx.toNat + 1), s.cell (3 * s.pixIdx.toNat + 2)⟩)] } := by
  obtain ⟨u, hu, hk⟩ := orFault_next h
  obtain ⟨hin, rfl⟩ := takePixel_ok hu
  cases hk
  exact ⟨hin, rfl⟩

theorem execEmitLast_next {s t : State} (h : execEmitLast s = .next t) :
    3 * s.pixIdx.toNat + 2 < Config.accCapacity ∧
      t = { s with pixIdx := 0, phase := .awaitLen, doneQ := false, trace := s.trace ++ [.pixelEmitted (color
        ⟨s.cell (3 * s.pixIdx.toNat), s.cell (3 * s.pixIdx.toNat + 1), s.cell (3 * s.pixIdx.toNat + 2)⟩)] } := by
  obtain ⟨u, hu, hk⟩ := orFault_next h
  obtain ⟨hin, rfl⟩ := takePixel_ok hu
  cases hk
  exact ⟨hin, rfl⟩

end Sys2Proof.Machine
end

