-- ==== Sys2Proof/Laws/PerInstr.lean ====
section
/-! SUPPORT. The family HeadSelects: the first byte of an instruction's encoding selects the instruction's own
row of the operation table (30_encoding.md rule R76). -/

namespace Sys2Proof.Laws.HeadSelects

/-- The first encoded byte selects the instruction's operation. -/
def Statement (i : Instr) : Prop := (encode i).head?.bind selectOp = some i.op

theorem reset : Statement .reset := by rw [Statement]; decide
theorem idle : Statement .idle := by rw [Statement]; decide
theorem feedHdrLo (b : Byte) : Statement (.feedHdrLo b) := show selectOp 0x04#8 = some .feedHdrLo by decide
theorem feedHdrHi (b : Byte) : Statement (.feedHdrHi b) := show selectOp 0x14#8 = some .feedHdrHi by decide
theorem feedPay (b : Byte) : Statement (.feedPay b) := show selectOp 0x24#8 = some .feedPay by decide
theorem feedLast (b : Byte) : Statement (.feedLast b) := show selectOp 0x2C#8 = some .feedLast by decide
theorem emitWait : Statement .emitWait := by rw [Statement]; decide
theorem emitPix : Statement .emitPix := by rw [Statement]; decide
theorem emitLast : Statement .emitLast := by rw [Statement]; decide
theorem illegal : Statement .illegal := by rw [Statement]; decide

end Sys2Proof.Laws.HeadSelects
end

