-- ==== Sys2Proof/Laws/Step.lean ====
section
/-! SUPPORT. What a step is: a cycle's bytes always decode, and a step is the decoded operation and then the
rising edge. -/

namespace Sys2Proof.Machine

/-- The table selects an operation for every decode vector (R76). -/
theorem selectOp_isSome (dv : DecodeVector) : (selectOp dv).isSome = true := by
  revert dv; decide

/-- The bytes of a cycle are always an instruction. -/
theorem fetch_decodes (s : State) : ∃ i rest, decode s.fetchBytes = .ok (i, rest) := by
  obtain ⟨op, h⟩ := Option.isSome_iff_exists.mp (selectOp_isSome s.decodeVector)
  simp only [decode, State.fetchBytes, h]
  cases op <;> exact ⟨_, _, rfl⟩

/-- A next state of a step is the decoded operation's, after the rising edge. -/
theorem step_next {s t : State} (h : step s = .next t) :
    ∃ i rest u, decode s.fetchBytes = .ok (i, rest) ∧ exec i s = .next u ∧ t = u.endCycle := by
  obtain ⟨i, rest, hd⟩ := fetch_decodes s
  rw [step, hd] at h
  cases he : exec i s with
  | next u =>
    simp only [he] at h
    cases h
    exact ⟨i, rest, u, hd, he, rfl⟩
  | fault f => simp only [he] at h; cases h
  | refused r => simp only [he] at h; cases h

end Sys2Proof.Machine
end

