-- ==== Sys2Proof/Tests/Slice0.lean ====
section
/-! SUPPORT. Small tests: each expected value is a vector of 95_test_vectors.md (named in the comment) or written
out from an encoding of 30_encoding.md; and, for every statement with hypotheses, a concrete state and operands that
meet them. -/

namespace Sys2Proof.Tests

open Sys2Proof.Machine

/-! ### Small states -/

/-- A byte is offered; the sink stalls. -/
def offer (b : Byte) : Pins := ⟨false, true, b, false⟩

/-- No byte is offered; the sink stalls. -/
def quiet : Pins := ⟨false, false, 0x00#8, false⟩

/-- No byte is offered; the sink takes a word. -/
def take : Pins := ⟨false, false, 0x00#8, true⟩

/-- Reset, with a byte offered and the sink ready. -/
def resetPins : Pins := ⟨true, true, 0x5A#8, true⟩

/-- Cells 0, 1, ... holding the given bytes. -/
def cellsOf (bytes : List Byte) : AccMem := (List.range bytes.length).zip bytes

/-- `AWAIT_LEN` with the given header bytes so far. -/
def awaitLen (bytes : List Byte) (ports : List Pins) : State :=
  { State.reset with accLen := BitVec.ofNat 16 bytes.length, accMem := cellsOf bytes, doneQ := true, inputs := ports }

/-- `AWAIT_PAY` with the given Declared Length and payload so far. -/
def awaitPay (len : Len) (bytes : List Byte) (ports : List Pins) : State :=
  { State.reset with
    phase := .awaitPay
    accLen := BitVec.ofNat 16 bytes.length
    accMem := cellsOf bytes
    declValid := true
    declLen := len
    inputs := ports }

/-- `EMIT` with the given frame and pixel number. -/
def emitting (frame : List Byte) (pix : Len) (ports : List Pins) : State :=
  { State.reset with
    phase := .emit
    accMem := cellsOf frame
    frameLen := BitVec.ofNat 16 frame.length
    pixIdx := pix
    doneQ := true
    inputs := ports }

/-- A state in the reserved phase. -/
def inReserved (ports : List Pins) : State := { State.reset with phase := .reserved, inputs := ports }

/-- The two-pixel frame of E1. -/
def frameE1 : List Byte := [0xFF#8, 0x00#8, 0x00#8, 0x00#8, 0xFF#8, 0x00#8]

/-- The next state, if there is one. -/
def nextOf (r : Result) : Option State :=
  match r with
  | .next t => some t
  | _ => none

/-! ### Decoding: the words from the table of R76 and the vectors V-D -/

-- R76, RESET `1xxxxxxx`; V-D-1, P3 cycle 10.
theorem test_decode_reset : decodeTableWord 8 0xA2 = some .reset := by decide
-- R76, IDLE `00xxx0xx`; V-D-3, V-D-4.
theorem test_decode_idle : decodeTableWord 8 0x12 = some .idle ∧ decodeTableWord 8 0x28 = some .idle := by decide
-- R76, FEED_HDR_LO `0000x1xx`; V-D-5 with the byte 0x06.
theorem test_decode_feedHdrLo : decode [0b00000100#8, 0x06#8] = .ok (.feedHdrLo 0x06#8, []) := by rfl
-- R76, FEED_HDR_HI `0001x1xx`; V-D-6.
theorem test_decode_feedHdrHi : decode [0b00010100#8, 0x00#8] = .ok (.feedHdrHi 0x00#8, []) := by rfl
-- R76, FEED_PAY `001x01xx`; V-D-7.
theorem test_decode_feedPay : decode [0b00100100#8, 0xFF#8] = .ok (.feedPay 0xFF#8, []) := by rfl
-- R76, FEED_LAST `001x11xx`; V-D-8.
theorem test_decode_feedLast : decode [0b00101100#8, 0x7F#8] = .ok (.feedLast 0x7F#8, []) := by rfl
-- R76, EMIT_WAIT `010xxx0x`; V-D-9, V-D-12.
theorem test_decode_emitWait : decodeTableWord 8 0x44 = some .emitWait ∧ decodeTableWord 8 0x41 = some .emitWait := by
  decide
-- R76, EMIT_PIX `010xxx10`; V-D-10.
theorem test_decode_emitPix : decodeTableWord 8 0x42 = some .emitPix := by decide
-- R76, EMIT_LAST `010xxx11`; V-D-11, P4 cycle 14.
theorem test_decode_emitLast : decodeTableWord 8 0x43 = some .emitLast ∧ decodeTableWord 8 0x47 = some .emitLast := by
  decide
-- R76, ILLEGAL `011xxxxx`; V-D-13.
theorem test_decode_illegal : decodeTableWord 8 0x60 = some .illegal ∧ decodeTableWord 8 0x7F = some .illegal := by
  decide
-- Bytes that are no instruction are rejected by name.
theorem test_decode_rejects : decode [] = .error .noDecodeVector ∧ decode [0x04#8] = .error (.noInData .feedHdrLo) :=
  ⟨rfl, rfl⟩

-- V-D-7, V-D-8: the decode vector of AWAIT_PAY with and without the last byte due.
theorem test_vector_awaitPay :
    (awaitPay 6 [1, 2, 3, 4, 5] [offer 0]).decodeVector = 0x2C#8 ∧ (awaitPay 6 [] [offer 0]).decodeVector = 0x24#8 := by
  decide
-- V-D-9, V-D-11, V-D-12: the decode vector of EMIT.
theorem test_vector_emit :
    (emitting frameE1 0 [offer 0]).decodeVector = 0x44#8 ∧ (emitting frameE1 1 [take]).decodeVector = 0x43#8 ∧
      (emitting [1, 2, 3] 0 [quiet]).decodeVector = 0x41#8 := by decide

/-! ### Well-formedness: an ill-formed term for each check -/

theorem test_wf_instructions : (Instr.feedHdrLo 0xFF#8).wf = true ∧ Instr.illegal.wf = true := by decide
-- R77 (b): `hdr_hi`, `pay_last` and `pix_last` outside their phase.
theorem test_dv_hdrHi_outside_awaitLen : dvArises 0b00110100#8 = false := by decide
theorem test_dv_payLast_outside_awaitPay : dvArises 0b00001100#8 = false := by decide
theorem test_dv_pixLast_outside_emit : dvArises 0b00000001#8 = false := by decide
theorem test_frame_too_long : (Directive.frame (List.replicate 65536 0x00#8)).wf = false := by
  rw [Directive.wf, List.length_replicate]; decide
theorem test_pixels_too_many : (Directive.pixels (List.replicate 21846 ⟨0, 0, 0⟩)).wf = false := by
  rw [Directive.wf, List.length_replicate]; decide

/-! ### Header, colour, pixel count -/

-- V-H-4, V-H-5, V-H-6, V-H-8.
theorem test_header : headerLength 0x34#8 0x12#8 = 0x1234#16 ∧ headerLength 0xFF#8 0x00#8 = 0x00FF#16 ∧
    headerLength 0xFF#8 0xFF#8 = 0xFFFF#16 ∧ headerLength 0xAA#8 0x06#8 = 0x06AA#16 := by decide
-- V-C-1, V-C-4.
theorem test_color : color ⟨0xFF#8, 0x00#8, 0x00#8⟩ = 0x0000FF#24 ∧ color ⟨0x12#8, 0x34#8, 0x56#8⟩ = 0x345612#24 ∧
    sinkWord (color ⟨0x12#8, 0x34#8, 0x56#8⟩) = 0x34561200#32 := by decide
-- The table "Pixel count and remainder".
theorem test_pixelCount : pixelCount 2 = 0 ∧ pixelCount 5 = 1 ∧ pixelCount 65534 = 21844 ∧ pixelCount 65535 = 21845 := by
  decide
-- E4: four bytes are one pixel.
theorem test_pixels_drop_remainder : pixels [0x11#8, 0x22#8, 0x33#8, 0x44#8] = [⟨0x11#8, 0x22#8, 0x33#8⟩] := by
  simp [pixels]

/-! ### One step of each operation -/

-- V-R-1: a partial frame is abandoned.
theorem test_reset_in_payload :
    (nextOf (step (awaitPay 1706 [1, 2, 3, 4, 5, 6, 7] [resetPins]))).any (fun t =>
      t.phase == .awaitLen && t.accLen == 0 && t.declared == none && t.frameLen == 0 && t.pixIdx == 0 &&
        t.doneQ == false && t.trace == [.reset]) = true := by decide
-- V-R-2: pixel 1 is never emitted.
theorem test_reset_in_emit :
    (nextOf (step (emitting frameE1 1 [resetPins]))).map (fun t => (t.phase, t.pixIdx, t.frameLen, t.trace)) =
    some (.awaitLen, 0, 0, [.reset]) := by decide
-- V-I-1.
theorem test_idle :
    (nextOf (step (awaitLen [0x06#8] [quiet]))).map (fun t => (t.phase, t.accLen, t.doneQ, t.trace)) =
    some (.awaitLen, 1, false, []) := by decide
-- V-HL-1.
theorem test_feedHdrLo :
    (nextOf (step (awaitLen [] [offer 0x00#8]))).map (fun t => (t.accLen, t.accMem, t.trace)) =
    some (1, [(0, 0x00#8)], [.byteAccepted 0x00#8]) := by decide
-- V-HH-1: an empty frame completes at once.
theorem test_feedHdrHi_zero :
    (nextOf (step (awaitLen [0x00#8] [offer 0x00#8]))).any (fun t =>
      t.phase == .awaitLen && t.accLen == 0 && t.declValid == false && t.frameLen == 0 && t.doneQ == true &&
        t.trace == [.byteAccepted 0x00#8, .frameDone 0]) = true := by decide
-- V-HH-3: the largest length.
theorem test_feedHdrHi_max :
    (nextOf (step (awaitLen [0xFF#8] [offer 0xFF#8]))).map (fun t => (t.phase, t.accLen, t.declared, t.trace)) =
    some (.awaitPay, 0, some 65535, [.byteAccepted 0xFF#8]) := by decide
-- V-P-1.
theorem test_feedPay :
    (nextOf (step (awaitPay 6 [0xFF#8, 0x00#8] [offer 0x00#8]))).map
      (fun t => (t.accLen, t.accMem.read 2, t.doneQ, t.trace)) =
    some (3, some 0x00#8, false, [.byteAccepted 0x00#8]) := by decide
-- V-P-2: the highest cell but one.
theorem test_feedPay_high :
    (nextOf (step { awaitPay 65535 [] [offer 0xFD#8] with accLen := 65533 })).map (fun t => (t.accLen, t.accMem)) =
    some (65534, [(65533, 0xFD#8)]) := by decide
-- V-FL-2: two bytes, no pixel.
theorem test_feedLast_no_pixel :
    (nextOf (step (awaitPay 2 [0x10#8] [offer 0x20#8]))).any (fun t =>
      t.phase == .awaitLen && t.accLen == 0 && t.declared == none && t.frameLen == 2 && t.doneQ == true &&
        t.trace == [.byteAccepted 0x20#8, .frameDone 2]) = true := by decide
-- V-FL-5: the highest cell.
theorem test_feedLast_max :
    (nextOf (step { awaitPay 65535 [] [offer 0xFE#8] with accLen := 65534 })).map
      (fun t => (t.phase, t.frameLen, t.accMem, t.trace)) =
    some (.emit, 65535, [(65534, 0xFE#8)], [.byteAccepted 0xFE#8, .frameDone 65535]) := by decide
-- V-EW-1: the offered byte is not consumed.
theorem test_emitWait :
    (nextOf (step (emitting frameE1 0 [offer 0x02#8]))).map (fun t => (t.phase, t.pixIdx, t.doneQ, t.trace)) =
    some (.emit, 0, false, []) := by decide
-- V-EP-1.
theorem test_emitPix :
    (nextOf (step (emitting frameE1 0 [take]))).map (fun t => (t.phase, t.pixIdx, t.trace)) =
    some (.emit, 1, [.pixelEmitted 0x0000FF#24]) := by decide
-- V-EL-1.
theorem test_emitLast :
    (nextOf (step (emitting frameE1 1 [take]))).map (fun t => (t.phase, t.pixIdx, t.trace)) =
    some (.awaitLen, 0, [.pixelEmitted 0xFF0000#24]) := by decide
-- V-EL-2: byte 44 is never read.
theorem test_emitLast_remainder :
    (nextOf (step (emitting [0x11#8, 0x22#8, 0x33#8, 0x44#8] 0 [take]))).map (fun t => (t.phase, t.trace)) =
    some (.awaitLen, [.pixelEmitted 0x223311#24]) := by decide
-- V-D-13.
theorem test_illegal : step (inReserved [take]) = .fault (.illegalPhase 0b11#2) := by rfl
-- R79: `.pixels (11,22,33), (44,55,66)` expands to `06 00 11 22 33 44 55 66` (E7).
theorem test_expand_pixels :
    expand (.pixels [⟨0x11#8, 0x22#8, 0x33#8⟩, ⟨0x44#8, 0x55#8, 0x66#8⟩]) =
    [.byte 0x06#8, .byte 0x00#8, .byte 0x11#8, .byte 0x22#8, .byte 0x33#8, .byte 0x44#8, .byte 0x55#8,
      .byte 0x66#8] := by decide
-- P4 cycles 11 and 15: a byte offered during EMIT stays with the source.
theorem test_bench_holds_byte :
    (match benchStep ⟨[.byte 0x00#8], [true]⟩ (emitting frameE1 0 []) with
      | .next (b, t) => some (b.source, t.pixIdx)
      | _ => none) = some ([.byte 0x00#8], 1) := by decide

/-! ### The placed word: one for each row of the table, from reset -/

theorem test_placed_words_run :
    (nextOf (step (State.reset.withFetchWord 8 0x80))).isSome = true ∧
    (nextOf (step (State.reset.withFetchWord 8 0x00))).isSome = true ∧
    (nextOf (step (State.reset.withFetchWord 8 0x04))).isSome = true ∧
    (nextOf (step (State.reset.withFetchWord 8 0x14))).isSome = true ∧
    (nextOf (step (State.reset.withFetchWord 8 0x24))).isSome = true ∧
    (nextOf (step (State.reset.withFetchWord 8 0x2C))).isSome = true ∧
    (nextOf (step (State.reset.withFetchWord 8 0x40))).isSome = true ∧
    (nextOf (step (State.reset.withFetchWord 8 0x42))).isSome = true ∧
    (nextOf (step (State.reset.withFetchWord 8 0x43))).isSome = true := by decide

/-! ### Witnesses: concrete states and operands that meet the hypotheses of the statements -/

/-- States that meet the invariant, one for each phase. -/
theorem inv_awaitLen : (awaitLen [0x06#8] [offer 0x00#8]).Inv :=
  ⟨by decide, by decide, rfl, rfl, rfl, show ∀ i, i < 1 → _ by decide⟩
theorem inv_awaitPay : (awaitPay 3 [0x01#8, 0x02#8] [offer 0x03#8]).Inv :=
  ⟨by decide, rfl, by decide, by decide, rfl, show ∀ i, i < 2 → _ by decide⟩
theorem inv_awaitPay_one : (awaitPay 4 [0x01#8] [offer 0x03#8]).Inv :=
  ⟨by decide, rfl, by decide, by decide, rfl, show ∀ i, i < 1 → _ by decide⟩
theorem inv_emit : (emitting frameE1 0 [take, take]).Inv :=
  ⟨by decide, rfl, rfl, rfl, by decide, by decide, show ∀ i, i < 6 → _ by decide⟩
theorem inv_emit_last : (emitting frameE1 1 [take]).Inv :=
  ⟨by decide, rfl, rfl, rfl, by decide, by decide, show ∀ i, i < 6 → _ by decide⟩
theorem inv_awaitLen_empty (ports : List Pins) : (awaitLen [] ports).Inv :=
  ⟨rfl, Nat.zero_le 1, rfl, rfl, rfl, fun i hi => absurd hi (Nat.not_lt_zero i)⟩

theorem witness_EveryVectorSelectsExactlyOneRow :
    0xFF#8 &&& 0x80#8 = 0x80#8 ∧ 0x3B#8 &&& 0xC4#8 = 0x00#8 ∧ 0x0F#8 &&& 0xF4#8 = 0x04#8 ∧
    0x1F#8 &&& 0xF4#8 = 0x14#8 ∧ 0x37#8 &&& 0xEC#8 = 0x24#8 ∧ 0x3F#8 &&& 0xEC#8 = 0x2C#8 ∧
    0x5D#8 &&& 0xE2#8 = 0x40#8 ∧ 0x5E#8 &&& 0xE3#8 = 0x42#8 ∧ 0x5F#8 &&& 0xE3#8 = 0x43#8 ∧
    0x7F#8 &&& 0xE0#8 = 0x60#8 := by decide

theorem witness_ExactlyTheArisingVectorsArise :
    dvArises 0x16#8 = true ∧ dvArises 0x2E#8 = true ∧ dvArises 0x47#8 = true ∧ dvArises 0x66#8 = true := by decide

theorem witness_InDataSelectsNothing :
    decode ((awaitLen [] []).withPins (offer 0x01#8)).fetchBytes = .ok (.feedHdrLo 0x01#8, []) ∧
    decode ((awaitLen [] []).withPins { offer 0x01#8 with inData := 0xFE#8 }).fetchBytes =
      .ok (.feedHdrLo 0xFE#8, []) := ⟨rfl, rfl⟩

/-- One state for each clause of StateAndPortsSelectTheOperation, and for each operation of
StepRunsTheDecodedInstruction and TransfersAreTheFeedAndEmitOperations. -/
theorem witness_StateAndPortsSelectTheOperation :
    decode (awaitLen [] [resetPins]).fetchBytes = .ok (.reset, [0x5A#8]) ∧
    decode (awaitLen [] [quiet]).fetchBytes = .ok (.idle, [0x00#8]) ∧
    decode (awaitPay 1 [] [quiet]).fetchBytes = .ok (.idle, [0x00#8]) ∧
    decode (awaitLen [] [offer 0x01#8]).fetchBytes = .ok (.feedHdrLo 0x01#8, []) ∧
    decode (awaitLen [0x01#8] [offer 0x02#8]).fetchBytes = .ok (.feedHdrHi 0x02#8, []) ∧
    decode (awaitPay 2 [] [offer 0x03#8]).fetchBytes = .ok (.feedPay 0x03#8, []) ∧
    decode (awaitPay 1 [] [offer 0x03#8]).fetchBytes = .ok (.feedLast 0x03#8, []) ∧
    decode (emitting frameE1 0 [quiet]).fetchBytes = .ok (.emitWait, [0x00#8]) ∧
    decode (emitting frameE1 0 [take]).fetchBytes = .ok (.emitPix, [0x00#8]) ∧
    decode (emitting frameE1 1 [take]).fetchBytes = .ok (.emitLast, [0x00#8]) ∧
    decode (inReserved [take]).fetchBytes = .ok (.illegal, [0x00#8]) :=
  ⟨rfl, rfl, rfl, rfl, rfl, rfl, rfl, rfl, rfl, rfl, rfl⟩

/-- The hypotheses on the outcome, each met: a next state and a fault. -/
theorem witness_StepRunsTheDecodedInstruction :
    (∃ t, exec (.feedHdrLo 0x01#8) (awaitLen [] [offer 0x01#8]) = .next t) ∧
    exec .illegal (inReserved [take]) = .fault (.illegalPhase 0b11#2) := ⟨⟨_, rfl⟩, rfl⟩

theorem witness_StepRunsThePlacedWord :
    decodeTableWord 8 0x43 = some .emitLast ∧ (∃ t, exec .emitLast (State.reset.withFetchWord 8 0x43) = .next t) ∧
    decodeTableWord 8 0x60 = some .illegal ∧
    exec .illegal (State.reset.withFetchWord 8 0x60) = .fault (.illegalPhase 0b11#2) :=
  ⟨by decide, ⟨_, rfl⟩, by decide, rfl⟩

theorem witness_ResetOperation :
    (emitting frameE1 1 [resetPins]).pins.rst = true ∧
    ∃ t u, exec .reset (emitting frameE1 1 []) = .next t ∧ exec .reset t = .next u := ⟨rfl, _, _, rfl, rfl⟩

theorem witness_ResetOutranksEveryOperation : (inReserved [resetPins]).pins.rst = true := rfl

/-- The highest index, for FeedHdrLoOperation and FeedPayOperation. -/
theorem witness_FeedHdrLoOperation : ({ awaitLen [] [] with accLen := 65534 } : State).accLen.toNat < 65535 := by decide
theorem witness_FeedPayOperation : ({ awaitPay 65535 [] [] with accLen := 65534 } : State).accLen.toNat < 65535 := by
  decide

/-- Both branches of FeedHdrHiOperation, at the lengths 0 and 1. -/
theorem witness_FeedHdrHiOperation :
    (awaitLen [0x00#8] []).accLen.toNat < 65535 ∧
    (0 : Len) = ((awaitLen [0x00#8] []).cell 0).setWidth 16 + ((0x00#8).setWidth 16 <<< 8) ∧
    (1 : Len) = ((awaitLen [0x01#8] []).cell 0).setWidth 16 + ((0x00#8).setWidth 16 <<< 8) ∧ (1 : Len) ≠ 0 := by
  decide

/-- Both branches of FeedLastOperation, at the lengths 2 and 3. -/
theorem witness_FeedLastOperation :
    (awaitPay 2 [0x10#8] []).accLen.toNat < 65535 ∧ (awaitPay 2 [0x10#8] []).declLen.toNat / 3 = 0 ∧
    (awaitPay 3 [0x10#8, 0x20#8] []).declLen.toNat / 3 ≠ 0 := by decide

/-- The highest pixel, for EmitPixOperation and EmitLastOperation, and a state in EMIT with the invariant. -/
theorem witness_EmitPixOperation :
    3 * (emitting frameE1 21844 []).pixIdx.toNat + 2 < 65535 ∧ (emitting frameE1 0 [take, take]).phase = .emit ∧
    (emitting frameE1 0 [take, take]).Inv := ⟨by decide, rfl, inv_emit⟩
theorem witness_EmitLastOperation :
    3 * (emitting frameE1 21844 []).pixIdx.toNat + 2 < 65535 ∧
    ({ emitting frameE1 1 [take, offer 0x00#8] with phase := .awaitLen } : State).endCycle.pins.rst = false :=
  ⟨by decide, rfl⟩

theorem witness_IllegalRaisesIllegalPhase :
    (inReserved [take]).phase = .reserved ∧ (inReserved [take]).pins.rst = false := ⟨rfl, rfl⟩

/-- Each of the faults of OperationsStopOnlyAtMissingCells, at the lowest index outside ACC. -/
theorem witness_OperationsStopOnlyAtMissingCells :
    exec .illegal (inReserved []) = .fault (.illegalPhase 0b11#2) ∧
    exec (.feedPay 0x00#8) { awaitPay 65535 [] [] with accLen := 65535 } = .fault (.noSuchCell 65535) ∧
    exec .emitPix (emitting frameE1 21845 []) = .fault (.noSuchCell 65535) := ⟨rfl, rfl, rfl⟩

/-- A next state of each operation that has one, for the statements about every operation. -/
theorem witness_OperationsLeaveThePortsAlone :
    (∃ t, exec .reset (emitting frameE1 1 []) = .next t) ∧
    (∃ t, exec .idle (awaitLen [] []) = .next t) ∧
    (∃ t, exec (.feedHdrLo 0x01#8) (awaitLen [] []) = .next t) ∧
    (∃ t, exec (.feedHdrHi 0x01#8) (awaitLen [0x00#8] []) = .next t) ∧
    (∃ t, exec (.feedPay 0x01#8) (awaitPay 4 [0x00#8] []) = .next t) ∧
    (∃ t, exec (.feedLast 0x01#8) (awaitPay 2 [0x00#8] []) = .next t) ∧
    (∃ t, exec .emitWait (emitting frameE1 0 []) = .next t) ∧
    (∃ t, exec .emitPix (emitting frameE1 0 []) = .next t) ∧
    (∃ t, exec .emitLast (emitting frameE1 1 []) = .next t) :=
  ⟨⟨_, rfl⟩, ⟨_, rfl⟩, ⟨_, rfl⟩, ⟨_, rfl⟩, ⟨_, rfl⟩, ⟨_, rfl⟩, ⟨_, rfl⟩, ⟨_, rfl⟩, ⟨_, rfl⟩⟩

/-- Each register changed by an operation of its list. -/
theorem witness_OnlyTheListedOperationsWriteEachRegister :
    (nextOf (exec (.feedLast 0x03#8) (awaitPay 3 [0x01#8, 0x02#8] []))).any (fun t =>
      t.phase != .awaitPay && t.accLen != 2 && t.declValid != true && t.declLen != 3 && t.frameLen != 0 &&
        t.accMem != cellsOf [0x01#8, 0x02#8]) = true ∧
    (nextOf (exec .emitPix (emitting frameE1 0 []))).any (fun t => t.pixIdx != 0) = true := by decide

theorem witness_HeaderIsLittleEndian : ∃ t, exec (.feedHdrHi 0x12#8) (awaitLen [0x34#8] []) = .next t := ⟨_, rfl⟩

theorem witness_PixelsAreConsecutiveTriples : 1 < frameE1.length / 3 ∧ [0x10#8, 0x20#8].length < 3 := by decide

theorem witness_FeedHasFourOutcomes :
    [0x01#8].length + 1 = (2 : Len).toNat ∧ [0x01#8].length + 1 ≠ (3 : Len).toNat := by decide

theorem witness_OutputsFollowTheirEquations :
    (emitting frameE1 1 [take]).phase = .emit ∧
    memRead (emitting frameE1 1 [take]) 3 = .ok 0x00#8 ∧ memRead (emitting frameE1 1 [take]) 4 = .ok 0xFF#8 ∧
    memRead (emitting frameE1 1 [take]) 5 = .ok 0x00#8 := ⟨rfl, rfl, rfl, rfl⟩

theorem witness_TransfersAreTheFeedAndEmitOperations :
    (awaitLen [] [offer 0x01#8]).byteTransfer = true ∧ (emitting frameE1 1 [take]).pixelTransfer = true ∧
    (emitting frameE1 1 [quiet]).pixelTransfer = false ∧ (awaitLen [] [resetPins]).byteTransfer = false := by decide

/-- A next state for each clause of CycleEventsFollowTheTransfers: a reset, a byte with and without a frame, a pixel,
nothing. -/
theorem witness_CycleEventsFollowTheTransfers :
    (∃ t, step (awaitLen [] [resetPins]) = .next t) ∧
    ((∃ t, step (awaitPay 3 [0x01#8, 0x02#8] [offer 0x03#8]) = .next t) ∧
      (awaitPay 3 [0x01#8, 0x02#8] [offer 0x03#8]).byteTransfer = true) ∧
    ((∃ t, step (awaitPay 4 [0x01#8, 0x02#8] [offer 0x03#8]) = .next t) ∧
      (awaitPay 4 [0x01#8, 0x02#8] [offer 0x03#8]).byteTransfer = true) ∧
    ((∃ t, step (emitting frameE1 1 [take]) = .next t) ∧ (emitting frameE1 1 [take]).pixelTransfer = true) ∧
    ((∃ t, step (awaitLen [] [quiet]) = .next t) ∧ (awaitLen [] [quiet]).byteTransfer = false ∧
      (awaitLen [] [quiet]).pixelTransfer = false ∧ (awaitLen [] [quiet]).pins.rst = false) :=
  ⟨⟨_, rfl⟩, ⟨⟨_, rfl⟩, rfl⟩, ⟨⟨_, rfl⟩, rfl⟩, ⟨⟨_, rfl⟩, rfl⟩, ⟨_, rfl⟩, rfl, rfl, rfl⟩

theorem witness_ByteTransferWritesExactlyOneCell :
    (∃ t, step (awaitPay 3 [0x01#8, 0x02#8] [offer 0x03#8]) = .next t) ∧
    (awaitPay 3 [0x01#8, 0x02#8] [offer 0x03#8]).byteTransfer = true ∧
    (awaitPay 3 [0x01#8, 0x02#8] [offer 0x03#8]).Inv ∧
    (∃ t, step (emitting frameE1 1 [take]) = .next t) ∧ (emitting frameE1 1 [take]).byteTransfer = false :=
  ⟨⟨_, rfl⟩, rfl, inv_awaitPay, ⟨_, rfl⟩, rfl⟩

/-- A step that completes a frame and one that does not. -/
theorem witness_DonePulseMarksFrameCompletion :
    (nextOf (step (awaitPay 3 [0x01#8, 0x02#8] [offer 0x03#8]))).map State.doneQ = some true ∧
    (nextOf (step (emitting frameE1 1 [take]))).map State.doneQ = some false := by decide

theorem witness_EmitAcceptsNoByte :
    (emitting frameE1 0 [offer 0x02#8]).phase = .emit ∧ (emitting frameE1 0 [offer 0x02#8]).pins.rst = false ∧
    ∃ t, step (emitting frameE1 0 [offer 0x02#8]) = .next t := ⟨rfl, rfl, _, rfl⟩

/-- A state of each phase with the invariant, and a step from it. -/
theorem witness_StepKeepsTheInvariant :
    ((awaitLen [0x06#8] [offer 0x00#8]).Inv ∧ ∃ t, step (awaitLen [0x06#8] [offer 0x00#8]) = .next t) ∧
    ((awaitPay 3 [0x01#8, 0x02#8] [offer 0x03#8]).Inv ∧
      ∃ t, step (awaitPay 3 [0x01#8, 0x02#8] [offer 0x03#8]) = .next t) ∧
    ((emitting frameE1 0 [take, take]).Inv ∧ ∃ t, step (emitting frameE1 0 [take, take]) = .next t) :=
  ⟨⟨inv_awaitLen, _, rfl⟩, ⟨inv_awaitPay, _, rfl⟩, inv_emit, _, rfl⟩

/-- A state that its trace agrees with: a header byte accepted after reset. -/
theorem witness_StepKeepsTraceAgreement :
    ({ awaitLen [0x06#8] [offer 0x00#8] with trace := [.reset, .byteAccepted 0x06#8] } : State).Inv ∧
    ({ awaitLen [0x06#8] [offer 0x00#8] with trace := [.reset, .byteAccepted 0x06#8] } : State).TraceInv ∧
    ∃ t, step { awaitLen [0x06#8] [offer 0x00#8] with trace := [.reset, .byteAccepted 0x06#8] } = .next t :=
  ⟨⟨by decide, by decide, rfl, rfl, rfl, show ∀ i, i < 1 → _ by decide⟩,
    ⟨by decide, by decide, by decide, by decide, fun h => nomatch h⟩, _, rfl⟩

theorem witness_NoInputStopsTheBlock : (emitting frameE1 1 [take]).Inv := inv_emit_last

theorem witness_OperationsKeepTheMemoryCanonical :
    (awaitPay 3 [0x01#8, 0x02#8] []).accMem.wf = true ∧
    ∃ t, exec (.feedLast 0x03#8) (awaitPay 3 [0x01#8, 0x02#8] []) = .next t := ⟨by decide, _, rfl⟩

theorem witness_ReservedPhaseIsNeverWritten : ∃ t, step (inReserved [resetPins]) = .next t := ⟨_, rfl⟩

/-- A state of each phase for CountersStayBounded. -/
theorem witness_CountersStayBounded :
    (awaitLen [0x06#8] [offer 0x00#8]).Inv ∧ (awaitPay 3 [0x01#8, 0x02#8] [offer 0x03#8]).Inv ∧
    (emitting frameE1 1 [take]).Inv := ⟨inv_awaitLen, inv_awaitPay, inv_emit_last⟩

theorem witness_ReachableStatesAreSafe :
    ∃ t, step { State.reset with inputs := [offer 0x06#8] } = .next t ∧ Reachable t :=
  ⟨_, rfl, .step (.reset [offer 0x06#8]) rfl⟩

/-- After one byte. -/
def afterByte : State :=
  { State.reset with accLen := 1, accMem := [(0, 0x06#8)], cycle := 1, trace := [.byteAccepted 0x06#8] }

/-- After a pause and the same byte. -/
def afterPauseAndByte : State :=
  { State.reset with accLen := 1, accMem := [(0, 0x06#8)], cycle := 2, trace := [.byteAccepted 0x06#8] }

/-- Two reachable states with the same bytes accepted, one after a pause. -/
theorem witness_PausesDoNotChangeTheDecoding :
    Reachable afterByte ∧ Reachable afterPauseAndByte ∧
    bytesOf (sinceReset afterByte.trace) = bytesOf (sinceReset afterPauseAndByte.trace) :=
  ⟨.step (.reset [offer 0x06#8]) rfl,
    .step (s := { State.reset with inputs := [offer 0x06#8], cycle := 1 })
      (.step (.reset [quiet, offer 0x06#8]) rfl) rfl, by decide⟩

/-- Each clause of OnlyAcceptedBytesAndResetMoveTheFraming. -/
theorem witness_OnlyAcceptedBytesAndResetMoveTheFraming :
    ((awaitLen [] [resetPins]).Inv ∧ (awaitLen [] [resetPins]).pins.rst = true) ∧
    ((awaitLen [] [quiet]).Inv ∧ (awaitLen [] [quiet]).byteTransfer = false ∧ (awaitLen [] [quiet]).pins.rst = false) ∧
    ((awaitLen [] [offer 0x06#8]).Inv ∧ (awaitLen [] [offer 0x06#8]).framing = some .headerLow) ∧
    ((awaitLen [0x06#8] [offer 0x00#8]).Inv ∧ (awaitLen [0x06#8] [offer 0x00#8]).framing = some .headerHigh ∧
      headerLength ((awaitLen [0x06#8] [offer 0x00#8]).cell 0) 0x00#8 ≠ 0 ∧
      headerLength ((awaitLen [0x00#8] [offer 0x00#8]).cell 0) 0x00#8 = 0) ∧
    ((awaitPay 3 [0x01#8, 0x02#8] [offer 0x03#8]).Inv ∧
      (awaitPay 3 [0x01#8, 0x02#8] [offer 0x03#8]).framing = some (.payload 1)) ∧
    ((awaitPay 4 [0x01#8] [offer 0x03#8]).Inv ∧
      (awaitPay 4 [0x01#8] [offer 0x03#8]).framing = some (.payload (1 + 2))) :=
  ⟨⟨inv_awaitLen_empty _, rfl⟩, ⟨inv_awaitLen_empty _, rfl, rfl⟩, ⟨inv_awaitLen_empty _, rfl⟩,
    ⟨inv_awaitLen, rfl, by decide, by decide⟩, ⟨inv_awaitPay, rfl⟩, inv_awaitPay_one, rfl⟩

theorem witness_IdleCyclesChangeNothing :
    (awaitPay 3 [0x01#8] [quiet, quiet, offer 0x02#8]).phase = .awaitPay ∧
    (awaitPay 3 [0x01#8] [quiet, quiet, offer 0x02#8]).inputs = [quiet, quiet] ++ [offer 0x02#8] ∧
    ∀ p, p ∈ [quiet, quiet] → p.rst = false ∧ p.inValid = false := by decide

theorem witness_PresentedColorIsStable :
    (emitting frameE1 1 [quiet, quiet, take]).phase = .emit ∧
    (emitting frameE1 1 [quiet, quiet, take]).inputs = [quiet, quiet] ++ take :: [] ∧
    (∀ q, q ∈ [quiet, quiet] → q.rst = false ∧ q.pxReady = false) ∧ take.rst = false := by decide

theorem witness_ReadySinkGetsTheWholeFrame :
    (emitting frameE1 0 [take, take]).Inv ∧ (emitting frameE1 0 [take, take]).phase = .emit ∧
    (emitting frameE1 0 [take, take]).inputs = [take, take] ++ [] ∧
    (∀ p, p ∈ [take, take] → p.rst = false ∧ p.pxReady = true) ∧
    [take, take].length = (emitting frameE1 0 [take, take]).frameLen.toNat / 3 -
      (emitting frameE1 0 [take, take]).pixIdx.toNat := ⟨inv_emit, rfl, rfl, by decide, by decide⟩

theorem witness_DirectivesExpandToTheirBytes : (Directive.frame [0x10#8, 0x20#8]).wf = true := by decide

theorem witness_SourceKeepsAByteUntilItIsAccepted :
    (∃ b t, benchStep ⟨[.byte 0x00#8], [true]⟩ (emitting frameE1 0 []) = .next (b, t)) ∧
    ∃ b t, benchStep ⟨[.byte 0x00#8], [true]⟩ (awaitLen [] []) = .next (b, t) := ⟨⟨_, _, rfl⟩, _, _, rfl⟩

theorem witness_PixelMessageRoundTrip :
    [(⟨0x11#8, 0x22#8, 0x33#8⟩ : Pixel)].length ≤ 21845 ∧ (awaitLen [] []).Inv ∧ (awaitLen [] []).phase = .awaitLen ∧
    (awaitLen [] []).accLen = 0 := ⟨by decide, inv_awaitLen_empty [], rfl, rfl⟩

theorem witness_PixelMessageSurvivesPausesAndStalls :
    ([] : List Pixel).length ≤ 21845 ∧ [(⟨0x11#8, 0x22#8, 0x33#8⟩ : Pixel)].length ≤ 21845 ∧ (awaitLen [] []).Inv ∧
    (awaitLen [] []).phase = .awaitLen ∧ (awaitLen [] []).accLen = 0 ∧
    [SourceItem.byte 0x00#8, .idle, .byte 0x00#8].filter (fun item => item ≠ .idle) = expand (.pixels []) ∧
    [SourceItem.idle, .byte 0x03#8, .byte 0x00#8, .idle, .byte 0x11#8, .byte 0x22#8, .byte 0x33#8, .idle].filter
      (fun item => item ≠ .idle) = expand (.pixels [⟨0x11#8, 0x22#8, 0x33#8⟩]) :=
  ⟨by decide, by decide, inv_awaitLen_empty [], rfl, rfl, by decide, by decide⟩

theorem witness_DecodeAndEncodeAgree : (Instr.feedLast 0xFE#8).wf = true := rfl

end Sys2Proof.Tests
end

section
/-! PROOFS. Which operation a cycle selects (30_encoding.md rules R74 to R76), and that its transfers are told from
that operation (10_state.md rule R34). -/

namespace Sys2Proof.Machine

/-- The operation of a cycle, told from the phase, the ports and the derived bits (R75, R76). -/
def State.selectedOp (s : State) : Op :=
  if s.pins.rst then .reset
  else match s.phase with
    | .awaitLen => if s.pins.inValid then (if s.hdrHi then .feedHdrHi else .feedHdrLo) else .idle
    | .awaitPay => if s.pins.inValid then (if s.payLast then .feedLast else .feedPay) else .idle
    | .emit => if s.pins.pxReady then (if s.pixLast then .emitLast else .emitPix) else .emitWait
    | .reserved => .illegal

/-- The table selects `selectedOp` (R76), whatever the derived bits are: each is masked out outside its phase. -/
theorem selectOp_decodeVector (s : State) : selectOp s.decodeVector = some s.selectedOp := by
  rw [State.decodeVector, State.selectedOp]
  generalize s.pins.rst = rst, s.pins.inValid = inValid, s.pins.pxReady = pxReady, s.hdrHi = hdrHi,
    s.payLast = payLast, s.pixLast = pixLast
  cases s.phase <;> revert rst inValid pxReady hdrHi payLast pixLast <;> decide

/-- A cycle decodes to its selected operation, with the byte on `in_data` where it takes one (R74). -/
theorem decode_fetchBytes (s : State) : decode s.fetchBytes = assemble s.selectedOp [s.pins.inData] := by
  simp only [State.fetchBytes, decode, selectOp_decodeVector]

/-- R34, R174, R200: reset and the two kinds of transfer are told from the selected operation. -/
theorem transfers_iff_selectedOp (s : State) :
    (s.pins.rst = true ↔ s.selectedOp = .reset) ∧
    (s.byteTransfer = true ↔ s.selectedOp ∈ [Op.feedHdrLo, .feedHdrHi, .feedPay, .feedLast]) ∧
    (s.pixelTransfer = true ↔ s.selectedOp ∈ [Op.emitPix, .emitLast]) := by
  rw [State.byteTransfer, State.inReady, State.pixelTransfer, State.pxValid, State.selectedOp]
  cases s.pins.rst with
  | true => simp
  | false =>
    cases s.phase with
    | awaitLen => cases s.pins.inValid <;> cases s.hdrHi <;> simp
    | awaitPay => cases s.pins.inValid <;> cases s.payLast <;> simp
    | emit => cases s.pins.pxReady <;> cases s.pixLast <;> simp
    | reserved => simp

/-- Without reset and transfers the operation is one that records nothing, or ILLEGAL. -/
theorem selectedOp_of_no_transfer {s : State} (hrst : s.pins.rst = false) (hbyte : s.byteTransfer = false)
    (hpix : s.pixelTransfer = false) : s.selectedOp ∈ [Op.idle, .emitWait, .illegal] := by
  have htransfers := transfers_iff_selectedOp s
  simp only [hrst, hbyte, hpix, Bool.false_eq_true, false_iff] at htransfers
  cases hop : s.selectedOp <;> simp [hop] at htransfers ⊢

/-- `px_color` of a cycle with a pixel transfer is the presented pixel's (R35). -/
theorem pxColor_of_pixelTransfer {s : State} {p : Pixel} (h : s.pixelTransfer = true)
    (hp : presentedPixel s = .ok p) : s.pxColor = .ok (color p) := by
  have hemit : (s.phase == .emit) = true := by
    simp only [State.pixelTransfer, State.pxValid, Bool.and_eq_true] at h
    exact h.1.2
  rw [State.pxColor, if_pos hemit, hp]

end Sys2Proof.Machine
end

section
/-! PROOFS. The events each operation, and so each step, records (00_scope.md rule R11), and the fields no operation
touches. -/

namespace Sys2Proof

open Machine

/-- An instruction executed in `s` records the events `es`, in order; `n` is the `frame_len` it leaves. -/
def Instr.Records (s : State) (n : Len) (es : List Event) : Instr → Prop
  | .reset => es = [.reset]
  | .idle => es = []
  | .feedHdrLo b => es = [.byteAccepted b]
  | .feedHdrHi b => es = [.byteAccepted b] ∨ es = [.byteAccepted b, .frameDone n]
  | .feedPay b => es = [.byteAccepted b]
  | .feedLast b => es = [.byteAccepted b, .frameDone n]
  | .emitWait => es = []
  | .emitPix => ∃ p, presentedPixel s = .ok p ∧ es = [.pixelEmitted (color p)]
  | .emitLast => ∃ p, presentedPixel s = .ok p ∧ es = [.pixelEmitted (color p)]
  | .illegal => False

/-- Beside the registers, an operation lengthens the trace by its events and keeps the port values to come and the
cycle number. -/
theorem exec_next_records {i : Instr} {s t : State} (h : exec i s = .next t) :
    t.inputs = s.inputs ∧ t.cycle = s.cycle ∧ ∃ es, t.trace = s.trace ++ es ∧ i.Records s t.frameLen es := by
  cases i with
  | reset => cases h; exact ⟨rfl, rfl, _, rfl, rfl⟩
  | idle => cases h; exact ⟨rfl, rfl, [], (List.append_nil _).symm, rfl⟩
  | feedHdrLo b => obtain ⟨-, rfl⟩ := execFeedHdrLo_next h; exact ⟨rfl, rfl, _, rfl, rfl⟩
  | feedHdrHi b =>
    obtain ⟨-, rfl⟩ := execFeedHdrHi_next h
    by_cases hlen : headerLength (s.cell 0) b = 0
    · rw [hlen, headerDecoded_zero]
      exact ⟨rfl, rfl, _, List.append_assoc .., .inr rfl⟩
    · rw [headerDecoded_pos _ hlen]
      exact ⟨rfl, rfl, _, rfl, .inl rfl⟩
  | feedPay b => obtain ⟨-, rfl⟩ := execFeedPay_next h; exact ⟨rfl, rfl, _, rfl, rfl⟩
  | feedLast b =>
    obtain ⟨-, rfl⟩ := execFeedLast_next h
    rw [frameCompleted_eq]
    exact ⟨rfl, rfl, _, List.append_assoc .., rfl⟩
  | emitWait => cases h; exact ⟨rfl, rfl, [], (List.append_nil _).symm, rfl⟩
  | emitPix =>
    obtain ⟨hin, rfl⟩ := execEmitPix_next h
    exact ⟨rfl, rfl, _, rfl, _, presentedPixel_inside s hin, rfl⟩
  | emitLast =>
    obtain ⟨hin, rfl⟩ := execEmitLast_next h
    exact ⟨rfl, rfl, _, rfl, _, presentedPixel_inside s hin, rfl⟩
  | illegal => cases h

/-- A step lengthens the trace by the events of its selected operation, applied to the byte on `in_data`. -/
theorem step_next_records {s t : State} (h : step s = .next t) :
    ∃ i rest es, assemble s.selectedOp [s.pins.inData] = .ok (i, rest) ∧ t.trace = s.trace ++ es ∧
      i.Records s t.frameLen es := by
  obtain ⟨i, rest, u, hd, hx, rfl⟩ := step_next h
  obtain ⟨-, -, es, htrace, hes⟩ := exec_next_records hx
  exact ⟨i, rest, es, decode_fetchBytes s ▸ hd, htrace, hes⟩

end Sys2Proof
end

section
/-! PROOFS. The family of 00_scope.md: what every operation and every step does to the trace. -/

namespace Sys2Proof.Machine

/-- Settles O23, from the one lemma on what an operation does beside the registers. -/
theorem operationsLeaveThePortsAlone : Obligations.OperationsLeaveThePortsAlone := by
  intro i s t h
  obtain ⟨hinputs, hcycle, es, htrace, -⟩ := exec_next_records h
  exact ⟨hinputs, hcycle, es, htrace⟩

/-- Settles O32: each kind of transfer fixes the selected operation, and that operation the events. -/
theorem cycleEventsFollowTheTransfers : Obligations.CycleEventsFollowTheTransfers := by
  intro s t h
  obtain ⟨i, rest, es, hi, htrace, hes⟩ := step_next_records h
  obtain ⟨hrstOp, hbyteOp, hpixOp⟩ := transfers_iff_selectedOp s
  simp only [List.mem_cons, List.not_mem_nil, or_false] at hbyteOp hpixOp
  refine ⟨es, htrace, fun hrst => ?reset, fun hbyte => ?byte, fun hpix => ?pixel, fun hrst hbyte hpix => ?nothing⟩
  case reset =>
    rw [hrstOp.1 hrst] at hi
    cases hi
    exact hes
  case byte =>
    rcases hbyteOp.1 hbyte with hsel | hsel | hsel | hsel <;> rw [hsel] at hi <;> cases hi
    · exact .inl hes
    · exact hes.imp_right fun he => ⟨_, he, rfl⟩
    · exact .inl hes
    · exact .inr ⟨_, hes, rfl⟩
  case pixel =>
    obtain ⟨p, hp, he⟩ : ∃ p, presentedPixel s = .ok p ∧ es = [.pixelEmitted (color p)] := by
      rcases hpixOp.1 hpix with hsel | hsel <;> rw [hsel] at hi <;> cases hi <;> exact hes
    exact ⟨color p, pxColor_of_pixelTransfer hpix hp, he⟩
  case nothing =>
    have hidle := selectedOp_of_no_transfer hrst hbyte hpix
    simp only [List.mem_cons, List.not_mem_nil, or_false] at hidle
    rcases hidle with hsel | hsel | hsel <;> rw [hsel] at hi <;> cases hi
    · exact hes
    · exact hes
    · exact hes.elim

end Sys2Proof.Machine
end

section
/-! PROOFS. Which cells have been written (10_state.md rule R31), the counters' increment and the Accumulator's
length. -/

namespace Sys2Proof.Machine

/-- Writing the first cell after those written makes it one of them. -/
theorem State.written.write_next {s t : State} {n : Nat} {v : Byte} (h : s.written n)
    (ht : t.accMem = s.accMem.write n v) : t.written (n + 1) := by
  intro i hi
  rw [ht, AccMem.read_write]
  split_ifs with heq
  · rfl
  · exact h i (by omega)

/-- No cell need be written for an empty Accumulator. -/
theorem State.written_zero (s : State) : s.written 0 := fun i hi => absurd hi (Nat.not_lt_zero i)

/-- The 16-bit increment of a counter below 65535 does not wrap (log entry 14). -/
theorem toNat_succ_of_lt {x : Len} (h : x.toNat < Config.accCapacity) : (x + 1).toNat = x.toNat + 1 := by
  have h' : x.toNat < 65535 := h
  rw [BitVec.toNat_add, show (1 : Len).toNat = 1 from rfl]
  omega

/-- The Accumulator has `acc_len` bytes (R21). -/
@[simp] theorem State.accumulator_length (s : State) : s.accumulator.length = s.accLen.toNat := by
  rw [State.accumulator, List.length_map, List.length_range]

end Sys2Proof.Machine
end

section
/-! PROOFS. What the selected operation of a cycle tells of the registers (30_encoding.md rules R75, R76), and a step
as that operation's. -/

namespace Sys2Proof.Machine

/-- The registers an operation is selected in (R75, R76); RESET is selected in any. -/
def State.Selects (s : State) : Op → Prop
  | .reset => True
  | .idle => s.phase = .awaitLen ∨ s.phase = .awaitPay
  | .feedHdrLo => s.phase = .awaitLen ∧ s.accLen ≠ 1
  | .feedHdrHi => s.phase = .awaitLen ∧ s.accLen = 1
  | .feedPay => s.phase = .awaitPay ∧ s.accLen.toNat + 1 ≠ s.declLen.toNat
  | .feedLast => s.phase = .awaitPay ∧ s.accLen.toNat + 1 = s.declLen.toNat
  | .emitWait => s.phase = .emit
  | .emitPix => s.phase = .emit ∧ s.pixIdx.toNat + 1 ≠ pixelCount s.frameLen
  | .emitLast => s.phase = .emit ∧ s.pixIdx.toNat + 1 = pixelCount s.frameLen
  | .illegal => s.phase = .reserved

theorem State.hdrHi_iff {s : State} : s.hdrHi = true ↔ s.phase = .awaitLen ∧ s.accLen = 1 := by
  simp [State.hdrHi]

theorem State.payLast_iff {s : State} :
    s.payLast = true ↔ s.phase = .awaitPay ∧ s.accLen.toNat + 1 = s.declLen.toNat := by
  simp [State.payLast]

theorem State.pixLast_iff {s : State} :
    s.pixLast = true ↔ s.phase = .emit ∧ s.pixIdx.toNat + 1 = pixelCount s.frameLen := by
  simp [State.pixLast]

/-- The selected operation is one the registers select: by phase, then by the port and the derived bit that the row
reads (R75, R76). -/
theorem selects_selectedOp (s : State) : s.Selects s.selectedOp := by
  rw [State.selectedOp]
  by_cases hrst : s.pins.rst = true
  · rw [if_pos hrst]
    trivial
  · rw [if_neg hrst]
    cases hp : s.phase with
    | awaitLen =>
      dsimp only
      split_ifs with hvalid hhi
      · exact State.hdrHi_iff.1 hhi
      · exact ⟨hp, fun hone => hhi (State.hdrHi_iff.2 ⟨hp, hone⟩)⟩
      · exact .inl hp
    | awaitPay =>
      dsimp only
      split_ifs with hvalid hlast
      · exact State.payLast_iff.1 hlast
      · exact ⟨hp, fun hsum => hlast (State.payLast_iff.2 ⟨hp, hsum⟩)⟩
      · exact .inr hp
    | emit =>
      dsimp only
      split_ifs with hready hlast
      · exact State.pixLast_iff.1 hlast
      · exact ⟨hp, fun hsum => hlast (State.pixLast_iff.2 ⟨hp, hsum⟩)⟩
      · exact hp
    | reserved => exact hp

/-- Assembling an operation gives an instruction of that operation (R74). -/
theorem op_of_assemble {op : Op} {bytes rest : List Byte} {i : Instr} (h : assemble op bytes = .ok (i, rest)) :
    i.op = op := by
  cases op <;> cases bytes <;> cases h <;> rfl

/-- The decoded instruction of a cycle is of the selected operation. -/
theorem op_of_decode {s : State} {i : Instr} {rest : List Byte} (h : decode s.fetchBytes = .ok (i, rest)) :
    i.op = s.selectedOp :=
  op_of_assemble (decode_fetchBytes s ▸ h)

/-- A step to a next state is an operation the registers select, and then the rising edge. -/
theorem step_next_selects {s t : State} (h : step s = .next t) :
    ∃ i u, s.Selects i.op ∧ exec i s = .next u ∧ t = u.endCycle := by
  obtain ⟨i, rest, u, hd, hx, ht⟩ := step_next h
  exact ⟨i, u, op_of_decode hd ▸ selects_selectedOp s, hx, ht⟩

end Sys2Proof.Machine
end

section
/-! PROOFS. What the two completions of 40_decoder.md (rules R103, R105) leave in the registers. -/

namespace Sys2Proof.Machine

variable (t : State) (len : Len)

theorem headerDecoded_phase : (headerDecoded t len).phase = if len = 0 then .awaitLen else .awaitPay := by
  split_ifs with h
  · rw [h, headerDecoded_zero]
  · rw [headerDecoded_pos t h]

@[simp] theorem headerDecoded_pixIdx : (headerDecoded t len).pixIdx = t.pixIdx := by
  by_cases h : len = 0
  · rw [h, headerDecoded_zero]
  · rw [headerDecoded_pos t h]

@[simp] theorem frameCompleted_phase :
    (frameCompleted t len).phase = if pixelCount len = 0 then .awaitLen else .emit := by
  rw [frameCompleted_eq]

@[simp] theorem frameCompleted_pixIdx : (frameCompleted t len).pixIdx = t.pixIdx := by rw [frameCompleted_eq]

end Sys2Proof.Machine
end

section
/-! PROOFS. The invariant of registers and cells (10_state.md rules R28 to R31): its form in each phase, and that each
operation keeps it where it is selected. -/

namespace Sys2Proof.Machine

theorem State.inv_awaitLen {s : State} (h : s.phase = .awaitLen) : s.Inv ↔ s.accMem.wf = true ∧ s.AwaitLenInv := by
  simp only [State.Inv, h]

theorem State.inv_awaitPay {s : State} (h : s.phase = .awaitPay) : s.Inv ↔ s.accMem.wf = true ∧ s.AwaitPayInv := by
  simp only [State.Inv, h]

theorem State.inv_emit {s : State} (h : s.phase = .emit) : s.Inv ↔ s.accMem.wf = true ∧ s.EmitInv := by
  simp only [State.Inv, h]

theorem State.Inv.wf {s : State} (h : s.Inv) : s.accMem.wf = true := h.1

theorem State.Inv.phase_ne_reserved {s : State} (h : s.Inv) : s.phase ≠ .reserved := by
  intro hp
  simp only [State.Inv, hp, and_false] at h

/-- The invariant reads neither `done_q` nor the ports, the cycle number and the trace. -/
theorem State.Inv.with_rest {s : State} (h : s.Inv) (done : Bool) (inputs : List Pins) (cycle : Nat)
    (trace : List Event) :
    State.Inv { s with doneQ := done, inputs := inputs, cycle := cycle, trace := trace } := by
  cases hp : s.phase with
  | awaitLen =>
    obtain ⟨hwf, hacc, hvalid, hdecl, hpix, hw⟩ := (State.inv_awaitLen hp).1 h
    exact (State.inv_awaitLen rfl).2 ⟨hwf, hacc, hvalid, hdecl, hpix, hw⟩
  | awaitPay =>
    obtain ⟨hwf, hvalid, hpos, hlt, hpix, hw⟩ := (State.inv_awaitPay hp).1 h
    exact (State.inv_awaitPay rfl).2 ⟨hwf, hvalid, hpos, hlt, hpix, hw⟩
  | emit =>
    obtain ⟨hwf, hacc, hvalid, hdecl, hlen, hpix, hw⟩ := (State.inv_emit hp).1 h
    exact (State.inv_emit rfl).2 ⟨hwf, hacc, hvalid, hdecl, hlen, hpix, hw⟩
  | reserved => exact absurd hp h.phase_ne_reserved

/-- An empty AWAIT_LEN state meets the invariant wherever its cells are canonical. -/
theorem State.inv_of_awaitLen_empty {s : State} (hphase : s.phase = .awaitLen) (hwf : s.accMem.wf = true)
    (hacc : s.accLen = 0) (hvalid : s.declValid = false) (hdecl : s.declLen = 0) (hpix : s.pixIdx = 0) : s.Inv :=
  (State.inv_awaitLen hphase).2 ⟨hwf, by simp [hacc], hvalid, hdecl, hpix, by rw [hacc]; exact s.written_zero⟩

/-- RESET: an empty AWAIT_LEN over the same cells (R200). -/
theorem execReset_keeps_inv {s t : State} (hinv : s.Inv) (hx : execReset s = .next t) : t.Inv := by
  cases hx
  exact State.inv_of_awaitLen_empty rfl hinv.wf rfl rfl rfl rfl

/-- FEED_HDR_LO: the Accumulator goes from no byte to one (R102). -/
theorem execFeedHdrLo_keeps_inv {s t : State} {b : Byte} (hsel : s.Selects .feedHdrLo) (hinv : s.Inv)
    (hx : execFeedHdrLo b s = .next t) : t.Inv := by
  obtain ⟨hp, hne⟩ := hsel
  obtain ⟨hwf, hacc, hvalid, hdecl, hpix, hw⟩ := (State.inv_awaitLen hp).1 hinv
  obtain ⟨hin, rfl⟩ := execFeedHdrLo_next hx
  have hsucc := toNat_succ_of_lt hin
  have hne' : s.accLen.toNat ≠ 1 := fun h => hne (BitVec.eq_of_toNat_eq h)
  refine (State.inv_awaitLen ?_).2 ⟨s.accMem.wf_write b hwf hin, ?_, hvalid, hdecl, hpix, ?_⟩
  · exact hp
  · exact hsucc.trans_le (by omega)
  · exact hsucc ▸ hw.write_next rfl

/-- FEED_HDR_HI: a zero length leaves AWAIT_LEN empty, any other begins a payload (R103). -/
theorem execFeedHdrHi_keeps_inv {s t : State} {b : Byte} (hsel : s.Selects .feedHdrHi) (hinv : s.Inv)
    (hx : execFeedHdrHi b s = .next t) : t.Inv := by
  obtain ⟨hp, -⟩ := hsel
  obtain ⟨hwf, -, -, -, hpix, -⟩ := (State.inv_awaitLen hp).1 hinv
  obtain ⟨hin, rfl⟩ := execFeedHdrHi_next hx
  have hwf' := s.accMem.wf_write b hwf hin
  by_cases hlen : headerLength (s.cell 0) b = 0
  · rw [hlen, headerDecoded_zero]
    exact State.inv_of_awaitLen_empty rfl hwf' rfl rfl rfl hpix
  · rw [headerDecoded_pos _ hlen]
    have hpos : 0 < (headerLength (s.cell 0) b).toNat :=
      Nat.pos_of_ne_zero fun h => hlen (BitVec.eq_of_toNat_eq h)
    exact (State.inv_awaitPay rfl).2 ⟨hwf', rfl, hpos, hpos, hpix, State.written_zero _⟩

/-- FEED_PAY: one byte more, and the payload still incomplete (R104). -/
theorem execFeedPay_keeps_inv {s t : State} {b : Byte} (hsel : s.Selects .feedPay) (hinv : s.Inv)
    (hx : execFeedPay b s = .next t) : t.Inv := by
  obtain ⟨hp, hne⟩ := hsel
  obtain ⟨hwf, hvalid, hpos, hlt, hpix, hw⟩ := (State.inv_awaitPay hp).1 hinv
  obtain ⟨hin, rfl⟩ := execFeedPay_next hx
  have hsucc := toNat_succ_of_lt hin
  refine (State.inv_awaitPay ?_).2 ⟨s.accMem.wf_write b hwf hin, hvalid, hpos, ?_, hpix, ?_⟩
  · exact hp
  · exact hsucc.trans_lt (Nat.lt_of_le_of_ne hlt hne)
  · exact hsucc ▸ hw.write_next rfl

/-- FEED_LAST: the byte written completes the frame's cells, and EMIT is entered only with a pixel to present
(R105). -/
theorem execFeedLast_keeps_inv {s t : State} {b : Byte} (hsel : s.Selects .feedLast) (hinv : s.Inv)
    (hx : execFeedLast b s = .next t) : t.Inv := by
  obtain ⟨hp, hlast⟩ := hsel
  obtain ⟨hwf, -, -, -, hpix, hw⟩ := (State.inv_awaitPay hp).1 hinv
  obtain ⟨hin, rfl⟩ := execFeedLast_next hx
  have hwf' := s.accMem.wf_write b hwf hin
  rw [frameCompleted_eq]
  by_cases hcount : pixelCount s.declLen = 0
  · exact State.inv_of_awaitLen_empty (if_pos hcount) hwf' rfl rfl rfl hpix
  · have hge : 3 ≤ s.declLen.toNat := by rw [pixelCount_eq] at hcount; omega
    refine (State.inv_emit (if_neg hcount)).2 ⟨hwf', rfl, rfl, rfl, hge, ?_, ?_⟩
    · simpa [State.record, hpix] using hge
    · exact hlast ▸ hw.write_next rfl

/-- EMIT_PIX: the next pixel is still one of the frame's (R143). -/
theorem execEmitPix_keeps_inv {s t : State} (hsel : s.Selects .emitPix) (hinv : s.Inv)
    (hx : execEmitPix s = .next t) : t.Inv := by
  obtain ⟨hp, hne⟩ := hsel
  obtain ⟨hwf, hacc, hvalid, hdecl, hlen, hpix, hw⟩ := (State.inv_emit hp).1 hinv
  obtain ⟨hin, rfl⟩ := execEmitPix_next hx
  have hsucc : (s.pixIdx + 1).toNat = s.pixIdx.toNat + 1 := toNat_succ_of_lt (by omega)
  refine (State.inv_emit ?_).2 ⟨hwf, hacc, hvalid, hdecl, hlen, ?_, hw⟩
  · exact hp
  · exact hsucc.trans_lt (Nat.lt_of_le_of_ne hpix hne)

/-- EMIT_LAST: back to an empty AWAIT_LEN (R144). -/
theorem execEmitLast_keeps_inv {s t : State} (hsel : s.Selects .emitLast) (hinv : s.Inv)
    (hx : execEmitLast s = .next t) : t.Inv := by
  obtain ⟨hwf, hacc, hvalid, hdecl, -, -, -⟩ := (State.inv_emit hsel.1).1 hinv
  obtain ⟨-, rfl⟩ := execEmitLast_next hx
  exact State.inv_of_awaitLen_empty rfl hwf hacc hvalid hdecl rfl

/-- Every operation keeps the invariant where the registers select it. -/
theorem exec_keeps_inv {i : Instr} {s t : State} (hsel : s.Selects i.op) (hinv : s.Inv) (hx : exec i s = .next t) :
    t.Inv := by
  cases i with
  | reset => exact execReset_keeps_inv hinv hx
  | idle => cases hx; exact hinv.with_rest ..
  | feedHdrLo b => exact execFeedHdrLo_keeps_inv hsel hinv hx
  | feedHdrHi b => exact execFeedHdrHi_keeps_inv hsel hinv hx
  | feedPay b => exact execFeedPay_keeps_inv hsel hinv hx
  | feedLast b => exact execFeedLast_keeps_inv hsel hinv hx
  | emitWait => cases hx; exact hinv.with_rest ..
  | emitPix => exact execEmitPix_keeps_inv hsel hinv hx
  | emitLast => exact execEmitLast_keeps_inv hsel hinv hx
  | illegal => cases hx

end Sys2Proof.Machine
end

section
/-! PROOFS. When an operation sets `done_q` (10_state.md rule R26) and which phase it leaves (rule R20). -/

namespace Sys2Proof.Machine

/-- An operation leaves `done_q` at 1 exactly where a `FrameDone` is among the events it records. -/
theorem exec_next_done {i : Instr} {s t : State} (h : exec i s = .next t) :
    ∃ es, t.trace = s.trace ++ es ∧ (t.doneQ = true ↔ ∃ n, Event.frameDone n ∈ es) := by
  cases i with
  | reset => cases h; exact ⟨_, rfl, by simp⟩
  | idle => cases h; exact ⟨[], (List.append_nil _).symm, by simp⟩
  | feedHdrLo b => obtain ⟨-, rfl⟩ := execFeedHdrLo_next h; exact ⟨_, rfl, by simp⟩
  | feedHdrHi b =>
    obtain ⟨-, rfl⟩ := execFeedHdrHi_next h
    by_cases hlen : headerLength (s.cell 0) b = 0
    · rw [hlen, headerDecoded_zero]
      exact ⟨_, List.append_assoc .., by simp⟩
    · rw [headerDecoded_pos _ hlen]
      exact ⟨_, rfl, by simp⟩
  | feedPay b => obtain ⟨-, rfl⟩ := execFeedPay_next h; exact ⟨_, rfl, by simp⟩
  | feedLast b =>
    obtain ⟨-, rfl⟩ := execFeedLast_next h
    rw [frameCompleted_eq]
    exact ⟨_, List.append_assoc .., by simp⟩
  | emitWait => cases h; exact ⟨[], (List.append_nil _).symm, by simp⟩
  | emitPix => obtain ⟨-, rfl⟩ := execEmitPix_next h; exact ⟨_, rfl, by simp⟩
  | emitLast => obtain ⟨-, rfl⟩ := execEmitLast_next h; exact ⟨_, rfl, by simp⟩
  | illegal => cases h

/-- Where the registers select an operation, its next state is not in the reserved phase: RESET leaves that phase,
ILLEGAL gives no next state, and no other operation is selected in it or writes it (R20). -/
theorem exec_next_phase_ne_reserved {i : Instr} {s t : State} (hsel : s.Selects i.op) (hx : exec i s = .next t) :
    t.phase ≠ .reserved := by
  cases i with
  | reset => cases hx; exact Phase.noConfusion
  | idle => cases hx; rcases hsel with hp | hp <;> simp [hp]
  | feedHdrLo b => obtain ⟨-, rfl⟩ := execFeedHdrLo_next hx; simp [hsel.1]
  | feedHdrHi b =>
    obtain ⟨-, rfl⟩ := execFeedHdrHi_next hx
    rw [headerDecoded_phase]
    split_ifs <;> exact Phase.noConfusion
  | feedPay b => obtain ⟨-, rfl⟩ := execFeedPay_next hx; simp [hsel.1]
  | feedLast b =>
    obtain ⟨-, rfl⟩ := execFeedLast_next hx
    rw [frameCompleted_phase]
    split_ifs <;> exact Phase.noConfusion
  | emitWait => cases hx; simp [show s.phase = .emit from hsel]
  | emitPix => obtain ⟨-, rfl⟩ := execEmitPix_next hx; simp [hsel.1]
  | emitLast => obtain ⟨-, rfl⟩ := execEmitLast_next hx; exact Phase.noConfusion
  | illegal => cases hx

end Sys2Proof.Machine
end

section
/-! PROOFS. The family of 10_state.md: the registers, the output ports and the invariant. -/

namespace Sys2Proof.Machine

/-- Settles O38: each operation keeps the invariant where it is selected, and the rising edge moves no register. -/
theorem stepKeepsTheInvariant : Obligations.StepKeepsTheInvariant := by
  intro s t hinv h
  obtain ⟨i, u, hsel, hx, rfl⟩ := step_next_selects h
  exact (exec_keeps_inv hsel hinv hx).with_rest ..

/-- Settles O24: each operation's next state, read field by field. -/
theorem onlyTheListedOperationsWriteEachRegister : Obligations.OnlyTheListedOperationsWriteEachRegister := by
  intro i s t h
  cases i with
  | reset => cases h; simp [Instr.op]
  | idle => cases h; simp
  | feedHdrLo b => obtain ⟨-, rfl⟩ := execFeedHdrLo_next h; simp [Instr.op]
  | feedHdrHi b => obtain ⟨-, rfl⟩ := execFeedHdrHi_next h; simp [Instr.op]
  | feedPay b => obtain ⟨-, rfl⟩ := execFeedPay_next h; simp [Instr.op]
  | feedLast b => obtain ⟨-, rfl⟩ := execFeedLast_next h; simp [Instr.op]
  | emitWait => cases h; simp
  | emitPix => obtain ⟨-, rfl⟩ := execEmitPix_next h; simp [Instr.op]
  | emitLast => obtain ⟨-, rfl⟩ := execEmitLast_next h; simp [Instr.op]
  | illegal => cases h

/-- Settles O31: the decoded operation is the selected one, which tells the transfers; no operation is of both
kinds. -/
theorem transfersAreTheFeedAndEmitOperations : Obligations.TransfersAreTheFeedAndEmitOperations := by
  intro s i rest hd
  obtain ⟨-, hbyte, hpix⟩ := transfers_iff_selectedOp s
  rw [← op_of_decode hd] at hbyte hpix
  refine ⟨hbyte, hpix, fun ⟨hb, hp⟩ => ?_⟩
  have hdisjoint : List.Disjoint [Op.feedHdrLo, .feedHdrHi, .feedPay, .feedLast] [Op.emitPix, .emitLast] := by simp
  exact hdisjoint (hbyte.1 hb) (hpix.1 hp)

/-- Settles O34: the events of a step are those its operation records. -/
theorem donePulseMarksFrameCompletion : Obligations.DonePulseMarksFrameCompletion := by
  refine ⟨fun s t h => ?_, fun _ => rfl, rfl⟩
  obtain ⟨i, u, -, hx, rfl⟩ := step_next_selects h
  obtain ⟨es, htrace, hdone⟩ := exec_next_done hx
  rw [State.endCycle_trace, htrace, List.drop_left]
  exact hdone

/-- Settles O42: no operation that the registers select gives a state in the reserved phase. -/
theorem reservedPhaseIsNeverWritten : Obligations.ReservedPhaseIsNeverWritten := by
  intro s t h
  obtain ⟨i, u, hsel, hx, rfl⟩ := step_next_selects h
  rw [State.endCycle_phase]
  exact exec_next_phase_ne_reserved hsel hx

/-- Settles O43, phase by phase: during EMIT the bound is the frame's pixel count, at most `65535 div 3`. -/
theorem countersStayBounded : Obligations.CountersStayBounded := by
  intro s hinv
  rw [State.accumulator_length]
  cases hp : s.phase with
  | awaitLen =>
    obtain ⟨-, hacc, -, -, hpix, -⟩ := (State.inv_awaitLen hp).1 hinv
    have hpix0 : s.pixIdx.toNat = 0 := by rw [hpix]; rfl
    exact ⟨by omega, fun _ => hpix, by omega, by omega, fun _ => by omega, Phase.noConfusion⟩
  | awaitPay =>
    obtain ⟨-, -, -, hlt, hpix, -⟩ := (State.inv_awaitPay hp).1 hinv
    have hdecl := s.declLen.isLt
    have hpix0 : s.pixIdx.toNat = 0 := by rw [hpix]; rfl
    exact ⟨by omega, fun _ => hpix, by omega, by omega, fun _ => by omega, Phase.noConfusion⟩
  | emit =>
    obtain ⟨-, hacc, -, -, -, hpix, -⟩ := (State.inv_emit hp).1 hinv
    have hframe := s.frameLen.isLt
    have hacc0 : s.accLen.toNat = 0 := by rw [hacc]; rfl
    rw [pixelCount_eq] at hpix
    exact ⟨by omega, absurd rfl, by omega, by omega, absurd rfl, fun _ => by omega⟩
  | reserved => exact absurd hp hinv.phase_ne_reserved

/-- Settles O30: each output port's equation, and that `px_color` reads no `px_ready` and `in_ready` no `in_valid`. -/
theorem outputsFollowTheirEquations : Obligations.OutputsFollowTheirEquations := by
  refine ⟨fun s => ⟨?inReady, ?pxValid, fun hemit r g b hr hg hb => ?pxColor, rfl, rfl⟩, fun s p v => ⟨rfl, rfl⟩⟩
  case inReady => simp [State.inReady]
  case pxValid => simp [State.pxValid]
  case pxColor =>
    have hpixel : presentedPixel s = .ok ⟨r, g, b⟩ := by rw [presentedPixel, hr, hg, hb]
    simp [State.pxColor, hemit, hpixel]

/-- Settles O36: the reset state is an empty AWAIT_LEN with no cell written. -/
theorem resetStateHoldsSpecValuesAndInvariant : Obligations.ResetStateHoldsSpecValuesAndInvariant :=
  ⟨rfl, rfl, rfl, rfl, rfl, rfl, rfl, rfl, State.inv_of_awaitLen_empty rfl rfl rfl rfl rfl rfl⟩

/-- Settles O37: no byte has been accepted, so the decoder is initial and has given no event and no frame. -/
theorem resetStateAgreesWithItsTrace : Obligations.ResetStateAgreesWithItsTrace := by
  intro ports
  exact
    { framing := rfl
      decoder := rfl
      emitted := rfl
      frameLen := rfl
      frame := fun h => Phase.noConfusion h }

end Sys2Proof.Machine
end

section
/-! PROOFS. Where the shared operations, and so the meanings, stop (20_memory.md rule R50; log entry 6): one `↔` for
each. -/

namespace Sys2Proof.Machine

/-- Where the continuation always answers a next state, the only fault is the one before it. -/
theorem orFault_next_eq_fault_iff {α : Type} {x : Except Fault α} {g : α → State} {f : Fault} :
    orFault x (fun a => .next (g a)) = .fault f ↔ x = .error f := by
  cases x with
  | ok a => simp
  | error f' => simp

/-- Accepting a byte stops exactly at index 65535, the one value of `acc_len` outside ACC. -/
theorem acceptByte_eq_error_iff {s : State} {b : Byte} {f : Fault} :
    acceptByte s b = .error f ↔ s.accLen.toNat = 65535 ∧ f = .noSuchCell 65535 := by
  by_cases hin : s.accLen.toNat < Config.accCapacity
  · simp [acceptByte_inside s b hin, hin.ne]
  · have hout : 65535 ≤ s.accLen.toNat := Nat.le_of_not_lt hin
    have hlast : s.accLen.toNat = 65535 := by omega
    simp [acceptByte_outside s b hout, hlast, eq_comm]

/-- ACC holds whole pixels only, 65535 being a multiple of 3: a pixel of which some cell is outside ACC has its first
cell outside. -/
theorem presentedPixel_eq_error {s : State} (h : 21845 ≤ s.pixIdx.toNat) :
    presentedPixel s = .error (.noSuchCell (3 * s.pixIdx.toNat)) := by
  rw [presentedPixel, memRead_outside s (i := 3 * s.pixIdx.toNat) (show 65535 ≤ _ by omega)]

/-- Taking a pixel stops exactly from pixel 21845 on, at the pixel's first cell. -/
theorem takePixel_eq_error_iff {s : State} {f : Fault} :
    takePixel s = .error f ↔ 21845 ≤ s.pixIdx.toNat ∧ f = .noSuchCell (3 * s.pixIdx.toNat) := by
  by_cases hout : 21845 ≤ s.pixIdx.toNat
  · simp [takePixel, presentedPixel_eq_error hout, hout, eq_comm]
  · simp [takePixel_inside s (show _ < 65535 by omega), hout]

theorem execFeedHdrLo_eq_fault_iff {b : Byte} {s : State} {f : Fault} :
    execFeedHdrLo b s = .fault f ↔ s.accLen.toNat = 65535 ∧ f = .noSuchCell 65535 :=
  orFault_next_eq_fault_iff.trans acceptByte_eq_error_iff

/-- The read of cell 0 and the header's length stop nothing. -/
theorem execFeedHdrHi_eq_fault_iff {b : Byte} {s : State} {f : Fault} :
    execFeedHdrHi b s = .fault f ↔ s.accLen.toNat = 65535 ∧ f = .noSuchCell 65535 := by
  simp only [execFeedHdrHi, memRead_zero, orFault_ok, headerFits_all, if_true]
  exact orFault_next_eq_fault_iff.trans acceptByte_eq_error_iff

theorem execFeedPay_eq_fault_iff {b : Byte} {s : State} {f : Fault} :
    execFeedPay b s = .fault f ↔ s.accLen.toNat = 65535 ∧ f = .noSuchCell 65535 :=
  orFault_next_eq_fault_iff.trans acceptByte_eq_error_iff

theorem execFeedLast_eq_fault_iff {b : Byte} {s : State} {f : Fault} :
    execFeedLast b s = .fault f ↔ s.accLen.toNat = 65535 ∧ f = .noSuchCell 65535 :=
  orFault_next_eq_fault_iff.trans acceptByte_eq_error_iff

theorem execEmitPix_eq_fault_iff {s : State} {f : Fault} :
    execEmitPix s = .fault f ↔ 21845 ≤ s.pixIdx.toNat ∧ f = .noSuchCell (3 * s.pixIdx.toNat) :=
  orFault_next_eq_fault_iff.trans takePixel_eq_error_iff

theorem execEmitLast_eq_fault_iff {s : State} {f : Fault} :
    execEmitLast s = .fault f ↔ 21845 ≤ s.pixIdx.toNat ∧ f = .noSuchCell (3 * s.pixIdx.toNat) :=
  orFault_next_eq_fault_iff.trans takePixel_eq_error_iff

end Sys2Proof.Machine
end

section
/-! PROOFS. The two completions of 40_decoder.md (rules R103, R105) write no cell. -/

namespace Sys2Proof.Machine

@[simp] theorem headerDecoded_accMem (t : State) (len : Len) : (headerDecoded t len).accMem = t.accMem := by
  by_cases h : len = 0
  · rw [h, headerDecoded_zero]
  · rw [headerDecoded_pos t h]

@[simp] theorem frameCompleted_accMem (t : State) (len : Len) :
    (frameCompleted t len).accMem = t.accMem := by
  rw [frameCompleted_eq]

end Sys2Proof.Machine
end

section
/-! PROOFS. What an operation, and so a step, does to the accumulator's cells (20_memory.md rule R51): a FEED operation
writes its operand at `acc_len`, any other nothing. -/

namespace Sys2Proof

open Machine

/-- The operand of an operation: the byte on `in_data`, which only the FEED operations have (R74). -/
def Instr.operand : Instr → Option Byte
  | .feedHdrLo b | .feedHdrHi b | .feedPay b | .feedLast b => some b
  | .reset | .idle | .emitWait | .emitPix | .emitLast | .illegal => none

/-- The FEED operations are assembled with the byte as their operand, the others with none. -/
theorem operand_of_assemble {op : Op} {d : Byte} {rest : List Byte} {i : Instr}
    (h : assemble op [d] = .ok (i, rest)) :
    i.operand = if op ∈ [Op.feedHdrLo, .feedHdrHi, .feedPay, .feedLast] then some d else none := by
  cases op <;> cases h <;> rfl

/-- The operation of a cycle has an operand exactly where the cycle has a byte transfer (R34, R74). -/
theorem operand_of_decode {s : State} {i : Instr} {rest : List Byte} (h : decode s.fetchBytes = .ok (i, rest)) :
    i.operand = if s.byteTransfer then some s.pins.inData else none := by
  obtain ⟨-, hbyte, -⟩ := transfers_iff_selectedOp s
  rw [decode_fetchBytes] at h
  simp only [operand_of_assemble h, hbyte]

/-- From a next state: without an operand the cells are as before; with one, cell `acc_len` exists and is written. -/
theorem exec_next_accMem {i : Instr} {s t : State} (h : exec i s = .next t) :
    (i.operand = none ∧ t.accMem = s.accMem) ∨
    ∃ b, i.operand = some b ∧ s.accLen.toNat < Config.accCapacity ∧
      t.accMem = s.accMem.write s.accLen.toNat b := by
  cases i with
  | reset => cases h; exact .inl ⟨rfl, rfl⟩
  | idle => cases h; exact .inl ⟨rfl, rfl⟩
  | feedHdrLo b => obtain ⟨hin, rfl⟩ := execFeedHdrLo_next h; exact .inr ⟨b, rfl, hin, rfl⟩
  | feedHdrHi b => obtain ⟨hin, rfl⟩ := execFeedHdrHi_next h; exact .inr ⟨b, rfl, hin, headerDecoded_accMem ..⟩
  | feedPay b => obtain ⟨hin, rfl⟩ := execFeedPay_next h; exact .inr ⟨b, rfl, hin, rfl⟩
  | feedLast b => obtain ⟨hin, rfl⟩ := execFeedLast_next h; exact .inr ⟨b, rfl, hin, frameCompleted_accMem ..⟩
  | emitWait => cases h; exact .inl ⟨rfl, rfl⟩
  | emitPix => obtain ⟨-, rfl⟩ := execEmitPix_next h; exact .inl ⟨rfl, rfl⟩
  | emitLast => obtain ⟨-, rfl⟩ := execEmitLast_next h; exact .inl ⟨rfl, rfl⟩
  | illegal => cases h

/-- The cells after a step: the byte transfer's write (R51), and no other. -/
theorem step_next_accMem {s t : State} (h : step s = .next t) :
    t.accMem = if s.byteTransfer then s.accMem.write s.accLen.toNat s.pins.inData else s.accMem := by
  obtain ⟨i, rest, u, hd, hx, rfl⟩ := step_next h
  have hoperand := operand_of_decode hd
  rw [State.endCycle_accMem]
  rcases exec_next_accMem hx with ⟨hnone, hkept⟩ | ⟨b, hb, -, hwrite⟩
  · have hidle : s.byteTransfer = false := by simpa [hnone] using hoperand
    rw [hidle, hkept]
    rfl
  · obtain ⟨htransfer, rfl⟩ : s.byteTransfer = true ∧ b = s.pins.inData := by simpa [hb] using hoperand
    rw [htransfer, hwrite]
    rfl

end Sys2Proof
end

section
/-! PROOFS. A cycle in EMIT (20_memory.md rule R60 (c)): an emission operation, which keeps the completed frame. -/

namespace Sys2Proof.Machine

@[simp] theorem bytesOf_append (es es' : List Event) : bytesOf (es ++ es') = bytesOf es ++ bytesOf es' :=
  List.filterMap_append

@[simp] theorem bytesOf_nil : bytesOf [] = [] := rfl

@[simp] theorem bytesOf_pixelEmitted (c : Color) (es : List Event) : bytesOf (.pixelEmitted c :: es) = bytesOf es := rfl

/-- Without reset, EMIT selects an emission operation. -/
theorem selectedOp_of_emit {s : State} (hemit : s.phase = .emit) (hrst : s.pins.rst = false) :
    s.selectedOp ∈ [Op.emitWait, .emitPix, .emitLast] := by
  simp only [State.selectedOp, hemit, hrst, Bool.false_eq_true, if_false]
  split_ifs <;> simp

/-- An emission operation accepts no byte and leaves the cells and `frame_len` (R142 to R144). -/
theorem exec_next_of_emission {i : Instr} {s t : State} (hop : i.op ∈ [Op.emitWait, .emitPix, .emitLast])
    (h : exec i s = .next t) :
    bytesOf t.trace = bytesOf s.trace ∧ t.accMem = s.accMem ∧ t.frameLen = s.frameLen := by
  cases i with
  | emitWait => cases h; exact ⟨rfl, rfl, rfl⟩
  | emitPix => obtain ⟨-, rfl⟩ := execEmitPix_next h; exact ⟨by simp, rfl, rfl⟩
  | emitLast => obtain ⟨-, rfl⟩ := execEmitLast_next h; exact ⟨by simp, rfl, rfl⟩
  | reset | idle | feedHdrLo | feedHdrHi | feedPay | feedLast | illegal => simp [Instr.op] at hop

/-- The completed frame is told from the cells and `frame_len` alone. -/
theorem State.frameBytes_congr {s t : State} (hmem : t.accMem = s.accMem) (hlen : t.frameLen = s.frameLen) :
    t.frameBytes = s.frameBytes := by
  rw [State.frameBytes, State.frameBytes, hlen]
  exact List.map_congr_left fun i _ => State.cell_congr (by rw [hmem])

end Sys2Proof.Machine
end

section
/-! PROOFS. The family of 20_memory.md: the accumulator's cells. -/

namespace Sys2Proof.Machine

/-- Settles O21: each meaning's fault is that of the one shared operation it calls. -/
theorem operationsStopOnlyAtMissingCells : Obligations.OperationsStopOnlyAtMissingCells := by
  intro i s f
  cases i with
  | reset => simp [exec, execReset, Instr.op]
  | idle => simp [exec, execIdle, Instr.op]
  | feedHdrLo b => simp [exec, Instr.op, execFeedHdrLo_eq_fault_iff]
  | feedHdrHi b => simp [exec, Instr.op, execFeedHdrHi_eq_fault_iff]
  | feedPay b => simp [exec, Instr.op, execFeedPay_eq_fault_iff]
  | feedLast b => simp [exec, Instr.op, execFeedLast_eq_fault_iff]
  | emitWait => simp [exec, execEmitWait, Instr.op]
  | emitPix => simp [exec, Instr.op, execEmitPix_eq_fault_iff]
  | emitLast => simp [exec, Instr.op, execEmitLast_eq_fault_iff]
  | illegal => simp [exec, execIllegal, Instr.op, eq_comm]

/-- Settles O33: the cells after a step are those of the one write, and `acc_len` is bounded by the counters'
invariant. -/
theorem byteTransferWritesExactlyOneCell : Obligations.ByteTransferWritesExactlyOneCell := by
  refine ⟨fun s t h htransfer => ?written, fun s t h hnone a => ?kept, fun s hinv _ => ?bound⟩
  case written =>
    have hmem := step_next_accMem h
    rw [if_pos htransfer] at hmem
    rw [hmem]
    exact ⟨s.accMem.read_write_same .., fun a ha => s.accMem.read_write_other _ ha⟩
  case kept => simp [step_next_accMem h, hnone]
  case bound =>
    obtain ⟨-, -, hacc, -⟩ := countersStayBounded s hinv
    omega

/-- Settles O35: the cycle's operation is an emission operation. -/
theorem emitAcceptsNoByte : Obligations.EmitAcceptsNoByte := by
  intro s t hemit hrst h
  obtain ⟨i, rest, u, hd, hx, rfl⟩ := step_next h
  have hop := op_of_decode hd ▸ selectedOp_of_emit hemit hrst
  obtain ⟨hbytes, hmem, hlen⟩ := exec_next_of_emission hop hx
  refine ⟨by simp [State.inReady, hemit], hbytes, fun a => ?_, hlen, State.frameBytes_congr hmem hlen⟩
  rw [State.endCycle_accMem, hmem]

/-- Settles O41: the only write is inside ACC, and a canonical memory lists nothing outside. -/
theorem operationsKeepTheMemoryCanonical : Obligations.OperationsKeepTheMemoryCanonical := by
  intro i s t hwf h
  have hwf' : t.accMem.wf = true := by
    rcases exec_next_accMem h with ⟨-, hkept⟩ | ⟨b, -, hin, hwrite⟩
    · rw [hkept, hwf]
    · rw [hwrite, s.accMem.wf_write b hwf hin]
  exact ⟨hwf', fun a ha => t.accMem.read_outside hwf' ha⟩

end Sys2Proof.Machine
end

section
/-! PROOFS. The operation table (30_encoding.md rule R76): its rows exclude each other, the decoder takes the one that
selects the vector, and each row's instruction encodes to the row's pattern. -/

namespace Sys2Proof

theorem Row.selects_iff {r : Row} {dv : DecodeVector} : r.selects dv = true ↔ dv &&& r.mask = r.pattern :=
  beq_iff_eq

/-- No two rows agree on the bits that both their masks read. -/
theorem opTable_disjoint :
    ∀ r ∈ opTable, ∀ r' ∈ opTable, r.pattern &&& r'.mask = r'.pattern &&& r.mask → r = r' := by
  decide

/-- At most one row selects a vector: two that do agree with it, and so with each other, on the bits both read. -/
theorem row_eq_of_selects {r r' : Row} {dv : DecodeVector} (hr : r ∈ opTable) (hr' : r' ∈ opTable)
    (h : r.selects dv = true) (h' : r'.selects dv = true) : r = r' := by
  rw [Row.selects_iff] at h h'
  refine opTable_disjoint r hr r' hr' ?_
  rw [← h, ← h', BitVec.and_assoc, BitVec.and_assoc, BitVec.and_comm r.mask]

/-- The operation of a vector is that of some row that selects it. -/
theorem exists_row_of_selectOp {dv : DecodeVector} {op : Op} (h : selectOp dv = some op) :
    ∃ r ∈ opTable, r.selects dv = true ∧ r.op = op := by
  obtain ⟨r, hfind, hop⟩ := Option.map_eq_some_iff.1 h
  exact ⟨r, List.mem_of_find?_eq_some hfind, List.find?_some (p := fun r : Row => r.selects dv) hfind, hop⟩

/-- The table is complete: some row selects the vector. -/
theorem exists_row_selects (dv : DecodeVector) : ∃ r ∈ opTable, r.selects dv = true := by
  obtain ⟨op, hop⟩ := Option.isSome_iff_exists.1 (Machine.selectOp_isSome dv)
  obtain ⟨r, hr, hsel, -⟩ := exists_row_of_selectOp hop
  exact ⟨r, hr, hsel⟩

/-- A row that selects a vector gives its operation. -/
theorem selectOp_of_selects {r : Row} {dv : DecodeVector} (hr : r ∈ opTable) (h : r.selects dv = true) :
    selectOp dv = some r.op := by
  obtain ⟨op, hop⟩ := Option.isSome_iff_exists.1 (Machine.selectOp_isSome dv)
  obtain ⟨r', hr', hsel', rfl⟩ := exists_row_of_selectOp hop
  rw [hop, row_eq_of_selects hr hr' h hsel']

/-- The same for the row at a place of the table, by its mask and match. -/
theorem selectOp_of_mask {dv : DecodeVector} (k : Nat) (hk : k < opTable.length := by decide)
    (h : dv &&& opTable[k].mask = opTable[k].pattern) : selectOp dv = some opTable[k].op :=
  selectOp_of_selects (List.getElem_mem hk) (Row.selects_iff.2 h)

/-- Past the vector, decoding is giving the selected operation its operand (R74). -/
theorem decode_of_selectOp {dv : DecodeVector} {op : Op} (h : selectOp dv = some op) (rest : List Byte) :
    decode (dv :: rest) = assemble op rest := by
  simp only [decode, h]

/-- A row's operation, with the byte on `in_data`, is an instruction that encodes to the row's pattern and that
byte. -/
theorem row_reencodes {r : Row} (hr : r ∈ opTable) (d : Byte) :
    ∃ i rest, assemble r.op [d] = .ok (i, rest) ∧ encode i ++ rest = [r.pattern, d] := by
  simp only [opTable, List.mem_cons, List.not_mem_nil, or_false] at hr
  rcases hr with rfl | rfl | rfl | rfl | rfl | rfl | rfl | rfl | rfl | rfl <;> exact ⟨_, _, rfl, rfl⟩

/-- The encoder's first byte selects the instruction's own row, which takes back the operand the encoder wrote. -/
theorem decode_encode (i : Instr) (rest : List Byte) : decode (encode i ++ rest) = .ok (i, rest) := by
  cases i with
  | reset => exact decode_of_selectOp Laws.HeadSelects.reset rest
  | idle => exact decode_of_selectOp Laws.HeadSelects.idle rest
  | feedHdrLo b => exact decode_of_selectOp (Laws.HeadSelects.feedHdrLo b) (b :: rest)
  | feedHdrHi b => exact decode_of_selectOp (Laws.HeadSelects.feedHdrHi b) (b :: rest)
  | feedPay b => exact decode_of_selectOp (Laws.HeadSelects.feedPay b) (b :: rest)
  | feedLast b => exact decode_of_selectOp (Laws.HeadSelects.feedLast b) (b :: rest)
  | emitWait => exact decode_of_selectOp Laws.HeadSelects.emitWait rest
  | emitPix => exact decode_of_selectOp Laws.HeadSelects.emitPix rest
  | emitLast => exact decode_of_selectOp Laws.HeadSelects.emitLast rest
  | illegal => exact decode_of_selectOp Laws.HeadSelects.illegal rest

/-- A table word's instruction is the one its two bytes decode to. -/
theorem decode_of_decodeTableWord {nbits w : Nat} {i : Instr} (h : decodeTableWord nbits w = some i) :
    ∃ rest, decode [BitVec.ofNat 8 (w % 2 ^ nbits), BitVec.ofNat 8 (w % 2 ^ nbits / 256)] = .ok (i, rest) := by
  rw [decodeTableWord] at h
  split at h
  next j rest hd =>
    cases h
    exact ⟨rest, hd⟩
  next => cases h

end Sys2Proof
end

section
/-! PROOFS. The bits of the decode vector (30_encoding.md rule R75), and which operation the registers and the ports
select in each phase. -/

namespace Sys2Proof.Machine

/-- The fields of the decode vector, from bit 7 down. -/
theorem decodeVector_bits (s : State) :
    s.decodeVector[7] = s.pins.rst ∧ s.decodeVector.extractLsb 6 5 = s.phase.code ∧
    s.decodeVector[4] = s.hdrHi ∧ s.decodeVector[3] = s.payLast ∧ s.decodeVector[2] = s.pins.inValid ∧
    s.decodeVector[1] = s.pins.pxReady ∧ s.decodeVector[0] = s.pixLast := by
  rw [State.decodeVector]
  generalize s.pins.rst = rst, s.phase.code = code, s.hdrHi = hdrHi, s.payLast = payLast,
    s.pins.inValid = inValid, s.pins.pxReady = pxReady, s.pixLast = pixLast
  revert rst code hdrHi payLast inValid pxReady pixLast
  decide

/-- The 17-bit sums of R75 are exact (R9). -/
theorem setWidth_succ_eq_iff (x : Len) {n : Nat} (hn : n < 2 ^ 17) :
    x.setWidth 17 + 1 = BitVec.ofNat 17 n ↔ x.toNat + 1 = n := by
  have hx := x.isLt
  rw [← BitVec.toNat_inj, BitVec.toNat_add, BitVec.toNat_setWidth, BitVec.toNat_ofNat,
    show (1 : BitVec 17).toNat = 1 from rfl]
  omega

/-- The derived bits are 0 outside their phase (R77 (b)). -/
theorem dvArises_decodeVector (s : State) : dvArises s.decodeVector = true := by
  obtain ⟨-, hcode, h4, h3, -, -, h0⟩ := decodeVector_bits s
  rw [dvArises, hcode, h4, h3, h0, State.hdrHi, State.payLast, State.pixLast]
  cases s.phase with
  | awaitLen => simp [Phase.code]
  | awaitPay => simp [Phase.code]
  | emit => simp [Phase.code]
  | reserved => simp

section
variable {s : State}

theorem selectedOp_eq_of_rst (hrst : s.pins.rst = true) : s.selectedOp = .reset := by
  rw [State.selectedOp, if_pos hrst]

variable (hrst : s.pins.rst = false)
include hrst

theorem selectedOp_eq_of_awaitLen (hp : s.phase = .awaitLen) :
    s.selectedOp = if s.pins.inValid then (if s.accLen = 1 then .feedHdrHi else .feedHdrLo) else .idle := by
  simp [State.selectedOp, hrst, hp, State.hdrHi_iff]

theorem selectedOp_eq_of_awaitPay (hp : s.phase = .awaitPay) :
    s.selectedOp =
      if s.pins.inValid then (if s.accLen.toNat + 1 = s.declLen.toNat then .feedLast else .feedPay) else .idle := by
  simp [State.selectedOp, hrst, hp, State.payLast_iff]

theorem selectedOp_eq_of_emit (hp : s.phase = .emit) :
    s.selectedOp =
      if s.pins.pxReady then (if s.pixIdx.toNat + 1 = s.frameLen.toNat / 3 then .emitLast else .emitPix)
      else .emitWait := by
  simp [State.selectedOp, hrst, hp, State.pixLast_iff]

theorem selectedOp_eq_of_reserved (hp : s.phase = .reserved) : s.selectedOp = .illegal := by
  simp [State.selectedOp, hrst, hp]

end

end Sys2Proof.Machine
end

section
/-! PROOFS. The state that `selecting` builds for a decode vector (log entry 10): its vector is the given one without
the derived bits that no state has in that phase (30_encoding.md rule R77 (b)), which no row of the table reads. -/

namespace Sys2Proof.Machine

@[simp] theorem Phase.code_ofCode (c : BitVec 2) : (Phase.ofCode c).code = c := by
  revert c; decide

/-- A decode vector with each derived bit cleared outside its phase. -/
def withoutStrayBits (dv : DecodeVector) : DecodeVector :=
  BitVec.ofBool dv[7] ++ dv.extractLsb 6 5 ++
    BitVec.ofBool (Phase.ofCode (dv.extractLsb 6 5) == .awaitLen && dv[4]) ++
    BitVec.ofBool (Phase.ofCode (dv.extractLsb 6 5) == .awaitPay && dv[3]) ++
    BitVec.ofBool dv[2] ++ BitVec.ofBool dv[1] ++
    BitVec.ofBool (Phase.ofCode (dv.extractLsb 6 5) == .emit && dv[0])

/-- A vector that arises has no stray bits. -/
theorem withoutStrayBits_eq_self {dv : DecodeVector} (h : dvArises dv = true) : withoutStrayBits dv = dv := by
  revert dv; decide

/-- No row reads a derived bit outside its phase (R76). -/
theorem selectOp_withoutStrayBits (dv : DecodeVector) : selectOp (withoutStrayBits dv) = selectOp dv := by
  revert dv; decide

section
variable (s : State) (dv : DecodeVector)

@[simp] theorem withSequencing_inputs : (s.withSequencing dv).inputs = s.inputs := by
  rw [State.withSequencing]; split <;> rfl

@[simp] theorem withSequencing_cycle : (s.withSequencing dv).cycle = s.cycle := by
  rw [State.withSequencing]; split <;> rfl

@[simp] theorem withSequencing_pins : (s.withSequencing dv).pins = s.pins := by
  simp only [State.pins, withSequencing_inputs, withSequencing_cycle]

@[simp] theorem withSequencing_phase : (s.withSequencing dv).phase = Phase.ofCode (dv.extractLsb 6 5) := by
  rw [State.withSequencing]; split <;> simp [*]

/-- The derived bits of the sequencing state are the vector's, each in its phase. -/
theorem withSequencing_derivedBits :
    (s.withSequencing dv).hdrHi = (Phase.ofCode (dv.extractLsb 6 5) == .awaitLen && dv[4]) ∧
    (s.withSequencing dv).payLast = (Phase.ofCode (dv.extractLsb 6 5) == .awaitPay && dv[3]) ∧
    (s.withSequencing dv).pixLast = (Phase.ofCode (dv.extractLsb 6 5) == .emit && dv[0]) := by
  rw [State.hdrHi, State.payLast, State.pixLast, withSequencing_phase, State.withSequencing]
  cases Phase.ofCode (dv.extractLsb 6 5) with
  | awaitLen => cases dv[4] <;> exact ⟨rfl, rfl, rfl⟩
  | awaitPay => cases dv[3] <;> exact ⟨rfl, rfl, rfl⟩
  | emit => cases dv[0] <;> simp
  | reserved => exact ⟨rfl, rfl, rfl⟩

end

/-- Whether or not the sequencing state is replaced, the ports are those the vector and the byte ask for. -/
theorem selecting_pins (s : State) (dv : DecodeVector) (d : Byte) : (s.selecting dv d).pins = pinsOf dv d := by
  rw [State.selecting]
  split_ifs
  · exact s.withPins_pins _
  · rw [withSequencing_pins, State.withPins_pins]

/-- A kept sequencing state has the vector, which thus arises; a replaced one is read off field by field. -/
theorem selecting_decodeVector (s : State) (dv : DecodeVector) (d : Byte) :
    (s.selecting dv d).decodeVector = withoutStrayBits dv := by
  rw [State.selecting]
  split_ifs with hkeep
  · have hdv : (s.withPins (pinsOf dv d)).decodeVector = dv := beq_iff_eq.1 hkeep
    rw [hdv, withoutStrayBits_eq_self (hdv ▸ dvArises_decodeVector _)]
  · obtain ⟨h4, h3, h0⟩ := withSequencing_derivedBits (s.withPins (pinsOf dv d)) dv
    rw [State.decodeVector, h4, h3, h0, withSequencing_pins, withSequencing_phase, Phase.code_ofCode]
    rfl

/-- The next cycle decodes the given vector and byte. -/
theorem decode_selecting (s : State) (dv : DecodeVector) (d : Byte) :
    decode (s.selecting dv d).fetchBytes = decode [dv, d] := by
  obtain ⟨op, hop⟩ := Option.isSome_iff_exists.1 (selectOp_isSome dv)
  rw [State.fetchBytes, selecting_decodeVector, selecting_pins, pinsOf, decode_of_selectOp hop,
    decode_of_selectOp ((selectOp_withoutStrayBits dv).trans hop)]

end Sys2Proof.Machine
end

section
/-! PROOFS. No meaning refuses (60_exceptions.md rule R172; log entry 8). -/

namespace Sys2Proof.Machine

/-- Where the continuation always answers a next state, nothing is refused. -/
theorem orFault_next_ne_refused {α : Type} {x : Except Fault α} {g : α → State} {r : Refusal} :
    orFault x (fun a => .next (g a)) ≠ .refused r := by
  intro h
  obtain ⟨a, -, hk⟩ := orFault_refused h
  cases hk

/-- The one refusal of a meaning, of FEED_HDR_HI for a header that does not fit, does not occur. -/
theorem exec_ne_refused (i : Instr) (s : State) (r : Refusal) : exec i s ≠ .refused r := by
  cases i with
  | reset | idle | emitWait | illegal => intro h; cases h
  | feedHdrLo b | feedPay b | feedLast b | emitPix | emitLast => exact orFault_next_ne_refused
  | feedHdrHi b =>
    simp only [exec, execFeedHdrHi, memRead_zero, orFault_ok, headerFits_all, if_true]
    exact orFault_next_ne_refused

end Sys2Proof.Machine
end

section
/-! PROOFS. The header's value (30_encoding.md rule R72). -/

namespace Sys2Proof.Machine

theorem headerLength_toNat (b0 b1 : Byte) : (headerLength b0 b1).toNat = b0.toNat + 256 * b1.toNat := by
  have h0 := b0.isLt
  have h1 := b1.isLt
  rw [headerLength, BitVec.toNat_add, BitVec.toNat_shiftLeft, BitVec.toNat_setWidth, BitVec.toNat_setWidth,
    Nat.shiftLeft_eq]
  omega

theorem headerLength_eq_append (b0 b1 : Byte) : headerLength b0 b1 = b1 ++ b0 := by
  refine BitVec.eq_of_toNat_eq ?_
  rw [headerLength_toNat, BitVec.toNat_append, ← Nat.shiftLeft_add_eq_or_of_lt b0.isLt, Nat.shiftLeft_eq]
  omega

/-- The two low bytes of a number are the header of its low 16 bits. -/
theorem headerLength_ofNat (n : Nat) :
    headerLength (BitVec.ofNat 8 n) (BitVec.ofNat 8 (n / 256)) = BitVec.ofNat 16 n := by
  refine BitVec.eq_of_toNat_eq ?_
  rw [headerLength_toNat, BitVec.toNat_ofNat, BitVec.toNat_ofNat, BitVec.toNat_ofNat]
  omega

/-- A zero length leaves `decl_len` at 0, which is the header's value too (R103). -/
@[simp] theorem headerDecoded_declLen (t : State) (len : Len) : (headerDecoded t len).declLen = len := by
  by_cases h : len = 0
  · rw [h, headerDecoded_zero]
  · rw [headerDecoded_pos t h]

end Sys2Proof.Machine
end

section
/-! PROOFS. The family of 30_encoding.md: the operation table, the decode vector, the header and the stimulus
directives. -/

namespace Sys2Proof.Machine

/-- Settles O2: the selected row's operation takes the byte, and that instruction encodes to the row. -/
theorem decodeAndEncodeAgree : Obligations.DecodeAndEncodeAgree := by
  refine ⟨fun i rest _ => decode_encode i rest, fun dv d => ?_⟩
  obtain ⟨r, hr, hsel⟩ := exists_row_selects dv
  obtain ⟨i, rest, hi, henc⟩ := row_reencodes hr d
  exact ⟨i, rest, r, decode_of_selectOp (selectOp_of_selects hr hsel) [d] ▸ hi, hr, hsel, (op_of_assemble hi).symm,
    henc⟩

/-- Settles O5: `selecting` clears only the bits that a vector which arises does not have. -/
theorem exactlyTheArisingVectorsArise : Obligations.ExactlyTheArisingVectorsArise := by
  refine ⟨dvArises_decodeVector, fun s dv d harises => ⟨?_, ?_⟩⟩
  · rw [selecting_decodeVector, withoutStrayBits_eq_self harises]
  · rw [selecting_pins, pinsOf]

/-- Settles O7: each clause fixes the branch of the selected operation in its phase. -/
theorem stateAndPortsSelectTheOperation : Obligations.StateAndPortsSelectTheOperation := by
  intro s
  simp only [decode_fetchBytes]
  refine ⟨fun hrst => ?reset, fun hrst => ⟨?idle, fun hp hvalid hacc => ?hdrLo, fun hp hvalid hacc => ?hdrHi,
    fun hp hvalid hsum => ?pay, fun hp hvalid hsum => ?last, fun hp hready => ?wait, fun hp hready hsum => ?pix,
    fun hp hready hsum => ?pixLast, fun hp => ?illegal⟩⟩
  case reset => rw [selectedOp_eq_of_rst hrst, assemble]
  case idle =>
    rintro (hp | hp) hvalid
    · rw [selectedOp_eq_of_awaitLen hrst hp, hvalid, if_neg Bool.false_ne_true, assemble]
    · rw [selectedOp_eq_of_awaitPay hrst hp, hvalid, if_neg Bool.false_ne_true, assemble]
  case hdrLo => rw [selectedOp_eq_of_awaitLen hrst hp, if_pos hvalid, if_neg hacc, assemble]
  case hdrHi => rw [selectedOp_eq_of_awaitLen hrst hp, if_pos hvalid, if_pos hacc, assemble]
  case pay => rw [selectedOp_eq_of_awaitPay hrst hp, if_pos hvalid, if_neg hsum, assemble]
  case last => rw [selectedOp_eq_of_awaitPay hrst hp, if_pos hvalid, if_pos hsum, assemble]
  case wait => rw [selectedOp_eq_of_emit hrst hp, hready, if_neg Bool.false_ne_true, assemble]
  case pix => rw [selectedOp_eq_of_emit hrst hp, if_pos hready, if_neg hsum, assemble]
  case pixLast => rw [selectedOp_eq_of_emit hrst hp, if_pos hready, if_pos hsum, assemble]
  case illegal => rw [selectedOp_eq_of_reserved hrst hp, assemble]

/-- Settles O8: the branch of `step` for bytes that decode. -/
theorem stepRunsTheDecodedInstruction : Obligations.StepRunsTheDecodedInstruction := by
  intro s i rest hd _
  rw [step, hd]
  refine ⟨fun t hx => ?_, fun f hx => ?_, fun r hx => ?_⟩ <;> simp only [hx, State.endCycle]

/-- Settles O9: in the state built for the word the cycle decodes the word's instruction, which the step runs. -/
theorem stepRunsThePlacedWord : Obligations.StepRunsThePlacedWord := by
  intro s nbits w i hword
  obtain ⟨rest, hd⟩ := decode_of_decodeTableWord hword
  rw [← decode_selecting s] at hd
  have hwf : i.wf = true := by cases i <;> rfl
  obtain ⟨hnext, hfault, -⟩ := stepRunsTheDecodedInstruction _ i rest hd hwf
  exact ⟨hnext, hfault, exec_ne_refused i _⟩

/-- Settles O1: the rows in the table's order, then that there is one and that it is alone. -/
theorem everyVectorSelectsExactlyOneRow : Obligations.EveryVectorSelectsExactlyOneRow := by
  intro dv
  obtain ⟨r, hr, hsel⟩ := exists_row_selects dv
  exact ⟨selectOp_of_mask 0, selectOp_of_mask 1, selectOp_of_mask 2, selectOp_of_mask 3, selectOp_of_mask 4,
    selectOp_of_mask 5, selectOp_of_mask 6, selectOp_of_mask 7, selectOp_of_mask 8, selectOp_of_mask 9,
    r, hr, hsel, fun _ hr' hsel' => row_eq_of_selects hr' hr hsel' hsel⟩

/-- Settles O3, by running the decoder on the twelve words. -/
theorem writtenOutWordsDecode : Obligations.WrittenOutWordsDecode := by
  unfold Obligations.WrittenOutWordsDecode
  decide

/-- Settles O4: the vector's fields, the derived bits' equations, and that the 17-bit sums are exact. -/
theorem decodeVectorBitsFollowTheirEquations : Obligations.DecodeVectorBitsFollowTheirEquations := by
  intro s
  obtain ⟨h7, hcode, h4, h3, h2, h1, h0⟩ := decodeVector_bits s
  have hdecl := s.declLen.isLt
  have hframe := s.frameLen.isLt
  refine ⟨h7, hcode, ?_, ?_, h2, h1, ?_⟩
  · rw [h4, State.hdrHi_iff]
  · rw [h3, State.payLast_iff, ← BitVec.ofNat_toNat 17 s.declLen, setWidth_succ_eq_iff _ (by omega)]
  · rw [h0, State.pixLast_iff, setWidth_succ_eq_iff _ (by omega), pixelCount_eq]

/-- Settles O6: neither the decode vector nor the selected operation reads `in_data`. -/
theorem inDataSelectsNothing : Obligations.InDataSelectsNothing := by
  intro s p d i j rest rest' hi hj
  have hsame : (s.withPins p).selectedOp = (s.withPins { p with inData := d }).selectedOp := rfl
  exact ⟨by rw [op_of_decode hi, op_of_decode hj, hsame], rfl⟩

/-- Settles O25: the header's value as a number, as a concatenation, and as what FEED_HDR_HI declares. -/
theorem headerIsLittleEndian : Obligations.HeaderIsLittleEndian := by
  refine ⟨fun b0 b1 => ⟨rfl, headerLength_eq_append b0 b1, headerLength_toNat b0 b1⟩,
    fun L => ⟨BitVec.ofNat 8 L.toNat, BitVec.ofNat 8 (L.toNat / 256), ?_⟩, fun s t b h => ?_⟩
  · rw [headerLength_ofNat, BitVec.ofNat_toNat, BitVec.setWidth_eq]
  · obtain ⟨-, rfl⟩ := execFeedHdrHi_next h
    exact headerDecoded_declLen ..

/-- Settles O50: a well-formed frame's count of bytes is its header's value. -/
theorem directivesExpandToTheirBytes : Obligations.DirectivesExpandToTheirBytes := by
  refine ⟨fun _ => rfl, fun f hwf => ?_, fun _ => rfl, fun _ => rfl, rfl⟩
  have hlen : f.length ≤ 65535 := of_decide_eq_true hwf
  refine ⟨BitVec.ofNat 8 f.length, BitVec.ofNat 8 (f.length / 256), headerLength_ofNat _, ?_, rfl⟩
  rw [headerLength_ofNat, BitVec.toNat_ofNat]
  omega

end Sys2Proof.Machine
end

section
/-! PROOFS. The four outcomes of `feed` (40_decoder.md rule R100), and what one byte more adds to a log. -/

namespace Sys2Proof.Machine

/-- The first header byte is kept. -/
theorem Decoder.feed_headerLow (b : Byte) : Decoder.feed ⟨[], none⟩ b = (⟨[b], none⟩, none) := rfl

/-- The second header byte is decoded, and a zero length completes an empty frame in the same call (90_conflicts.md
C1). -/
theorem Decoder.feed_headerHigh (b0 b1 : Byte) : Decoder.feed ⟨[b0], none⟩ b1 =
    if headerLength b0 b1 = 0 then (⟨[], none⟩, some []) else (⟨[], some (headerLength b0 b1)⟩, none) := by
  have hzero : 0 = (headerLength b0 b1).toNat ↔ headerLength b0 b1 = 0 := by rw [← BitVec.toNat_inj, eq_comm]; rfl
  simp only [Decoder.feed, Decoder.header, Decoder.complete, Decoder.initial, List.cons_append, List.nil_append,
    List.length_nil, hzero]

/-- While a Declared Length is present there is no header to decode, and only the Accumulator's length is tested. -/
theorem Decoder.feed_payload (acc : List Byte) (L : Len) (b : Byte) : Decoder.feed ⟨acc, some L⟩ b =
    if acc.length + 1 = L.toNat then (⟨[], none⟩, some (acc ++ [b])) else (⟨acc ++ [b], some L⟩, none) := by
  simp only [Decoder.feed, Decoder.header, Decoder.complete, Decoder.initial, List.length_append, List.length_singleton]

/-- A byte that completes no frame adds its own event. -/
theorem FeedLog.feed_of_none {l : FeedLog} {b : Byte} {d : Decoder} (h : l.decoder.feed b = (d, none)) :
    l.feed b = ⟨d, l.events ++ [.byteAccepted b], l.frames⟩ := by
  simp only [FeedLog.feed, h]

/-- A byte that completes a frame adds `FrameDone` of the frame's length too. -/
theorem FeedLog.feed_of_some {l : FeedLog} {b : Byte} {d : Decoder} {f : List Byte}
    (h : l.decoder.feed b = (d, some f)) :
    l.feed b = ⟨d, l.events ++ [.byteAccepted b, .frameDone (BitVec.ofNat 16 f.length)], l.frames ++ [f]⟩ := by
  simp only [FeedLog.feed, h]

/-- The last byte is fed last. -/
theorem feedAll_append_singleton (bytes : List Byte) (b : Byte) : feedAll (bytes ++ [b]) = (feedAll bytes).feed b :=
  List.foldl_append

end Sys2Proof.Machine
end

section
/-! PROOFS. What a longer trace holds since its last `Reset`, and its bytes, colours and framing events. -/

namespace Sys2Proof.Machine

/-- After a `Reset` a trace begins anew. -/
@[simp] theorem sinceReset_append_reset (tr : List Event) : sinceReset (tr ++ [.reset]) = [] := by
  simp [sinceReset]

/-- Other events are added to those since the last `Reset`. -/
theorem sinceReset_append {es : List Event} (h : Event.reset ∉ es) (tr : List Event) :
    sinceReset (tr ++ es) = sinceReset tr ++ es := by
  rw [sinceReset, List.foldl_append, ← sinceReset]
  generalize sinceReset tr = seen
  induction es generalizing seen with
  | nil => simp
  | cons e es ih =>
    obtain ⟨he, hes⟩ := List.ne_and_not_mem_of_not_mem_cons h
    rw [List.foldl_cons, if_neg he.symm, ih hes, List.append_assoc, List.singleton_append]

@[simp] theorem bytesOf_byteAccepted (b : Byte) (es : List Event) : bytesOf (.byteAccepted b :: es) = b :: bytesOf es :=
  rfl

@[simp] theorem bytesOf_frameDone (n : Len) (es : List Event) : bytesOf (.frameDone n :: es) = bytesOf es := rfl

@[simp] theorem colorsOf_append (es es' : List Event) : colorsOf (es ++ es') = colorsOf es ++ colorsOf es' :=
  List.filterMap_append

@[simp] theorem colorsOf_nil : colorsOf [] = [] := rfl

@[simp] theorem colorsOf_byteAccepted (b : Byte) (es : List Event) : colorsOf (.byteAccepted b :: es) = colorsOf es :=
  rfl

@[simp] theorem colorsOf_frameDone (n : Len) (es : List Event) : colorsOf (.frameDone n :: es) = colorsOf es := rfl

@[simp] theorem colorsOf_pixelEmitted (c : Color) (es : List Event) :
    colorsOf (.pixelEmitted c :: es) = c :: colorsOf es := rfl

@[simp] theorem framingOf_append (es es' : List Event) : framingOf (es ++ es') = framingOf es ++ framingOf es' :=
  List.filter_append ..

@[simp] theorem framingOf_nil : framingOf [] = [] := rfl

@[simp] theorem framingOf_byteAccepted (b : Byte) (es : List Event) :
    framingOf (.byteAccepted b :: es) = .byteAccepted b :: framingOf es := rfl

@[simp] theorem framingOf_frameDone (n : Len) (es : List Event) :
    framingOf (.frameDone n :: es) = .frameDone n :: framingOf es := rfl

@[simp] theorem framingOf_pixelEmitted (c : Color) (es : List Event) :
    framingOf (.pixelEmitted c :: es) = framingOf es := rfl

end Sys2Proof.Machine
end

section
/-! PROOFS. The pixels of a frame (41_pixel.md rule R140): how many there are, and which three bytes each is. -/

namespace Sys2Proof.Machine

/-- A list of bytes with no first triple is shorter than one. -/
theorem length_lt_three {f : List Byte} (h : ∀ r g b rest, f = r :: g :: b :: rest → False) : f.length < 3 := by
  match f, h with
  | [], _ => exact Nat.succ_pos 2
  | [_], _ => exact Nat.succ_lt_succ (Nat.succ_pos 1)
  | [_, _], _ => exact Nat.lt_succ_self 2
  | r :: g :: b :: rest, h => exact (h r g b rest rfl).elim

/-- `pixels` takes three bytes at a time, and a remainder of fewer gives none. -/
theorem pixels_length (f : List Byte) : (pixels f).length = f.length / 3 := by
  induction f using pixels.induct with
  | case1 r g b rest ih => simp only [pixels, List.length_cons, ih]; omega
  | case2 f hshort =>
    rw [pixels, List.length_nil, Nat.div_eq_of_lt (length_lt_three hshort)]
    exact hshort

/-- A frame of fewer than three bytes has no pixel. -/
theorem frameColors_of_short {f : List Byte} (h : f.length / 3 = 0) : frameColors f = [] := by
  rw [frameColors, List.map_eq_nil_iff, ← List.length_eq_zero_iff, pixels_length, h]

@[simp] theorem frameColors_length (f : List Byte) : (frameColors f).length = f.length / 3 := by
  rw [frameColors, List.length_map, pixels_length]

/-- Pixel `i` is bytes `3i`, `3i+1`, `3i+2`. -/
theorem pixels_getElem? {f : List Byte} {i : Nat} {r g b : Byte} (hr : f[3 * i]? = some r)
    (hg : f[3 * i + 1]? = some g) (hb : f[3 * i + 2]? = some b) : (pixels f)[i]? = some ⟨r, g, b⟩ := by
  induction f using pixels.induct generalizing i with
  | case1 r' g' b' rest ih =>
    cases i with
    | zero => cases hr; cases hg; cases hb; rfl
    | succ i => exact ih hr hg hb
  | case2 f hshort =>
    have hlen : 3 * i + 2 < f.length := (List.getElem?_eq_some_iff.1 hb).1
    have hlt := length_lt_three hshort
    omega

end Sys2Proof.Machine
end

section
/-! PROOFS. The Accumulator, the completed frame and the pending colours as lists of cells (10_state.md rules R21,
R22). -/

namespace Sys2Proof.Machine

/-- Writing the cell after the first `n` appends the byte to them. -/
theorem map_cell_range_succ {s t : State} {n : Nat} {v : Byte} (h : t.accMem = s.accMem.write n v) :
    (List.range (n + 1)).map t.cell = (List.range n).map s.cell ++ [v] := by
  rw [List.range_succ, List.map_append, List.map_singleton]
  have hlast : t.cell n = v := State.cell_of_read (by rw [h, AccMem.read_write_same])
  rw [hlast]
  refine congrArg (· ++ [v]) (List.map_congr_left fun i hi => State.cell_congr ?_)
  rw [h, s.accMem.read_write_other v (List.mem_range.1 hi).ne]

/-- A byte written at `acc_len`, and `acc_len` counted up, appends the byte to the Accumulator (R51). -/
theorem State.accumulator_append {s t : State} {b : Byte} (hin : s.accLen.toNat < Config.accCapacity)
    (hmem : t.accMem = s.accMem.write s.accLen.toNat b) (hacc : t.accLen = s.accLen + 1) :
    t.accumulator = s.accumulator ++ [b] := by
  rw [State.accumulator, hacc, toNat_succ_of_lt hin, map_cell_range_succ hmem, ← State.accumulator]

theorem State.accumulator_of_zero {s : State} (h : s.accLen = 0) : s.accumulator = [] := by
  rw [State.accumulator, h]; rfl

theorem State.accumulator_of_one {s : State} (h : s.accLen = 1) : s.accumulator = [s.cell 0] := by
  rw [State.accumulator, h]; rfl

/-- In AWAIT_LEN the Accumulator holds no byte or one (R28). -/
theorem State.AwaitLenInv.accLen_eq_zero {s : State} (h : s.AwaitLenInv) (hne : s.accLen ≠ 1) : s.accLen = 0 := by
  have hle := h.accLen_le
  have hne' : s.accLen.toNat ≠ 1 := fun hone => hne (BitVec.eq_of_toNat_eq hone)
  exact BitVec.eq_of_toNat_eq (show s.accLen.toNat = 0 by omega)

theorem State.declared_of_absent {s : State} (h : s.declValid = false) : s.declared = none := by
  rw [State.declared, h]; rfl

theorem State.declared_of_present {s : State} (h : s.declValid = true) : s.declared = some s.declLen := by
  rw [State.declared, h]; rfl

@[simp] theorem State.frameBytes_length (s : State) : s.frameBytes.length = s.frameLen.toNat := by
  rw [State.frameBytes, List.length_map, List.length_range]

theorem State.pending_of_emit {s : State} (h : s.phase = .emit) :
    s.pending = (frameColors s.frameBytes).drop s.pixIdx.toNat := if_pos h

theorem State.pending_of_ne_emit {s : State} (h : s.phase ≠ .emit) : s.pending = [] := if_neg h

/-- The frame's bytes are its cells. -/
theorem State.frameBytes_getElem? {s : State} {i : Nat} (h : i < s.frameLen.toNat) :
    s.frameBytes[i]? = some (s.cell i) := by
  simp [State.frameBytes, h]

/-- During EMIT the presented pixel's colour is the first one pending (R143). -/
theorem State.EmitInv.pending_eq_cons {s : State} (hp : s.phase = .emit) (h : s.EmitInv) : s.pending =
    color ⟨s.cell (3 * s.pixIdx.toNat), s.cell (3 * s.pixIdx.toNat + 1), s.cell (3 * s.pixIdx.toNat + 2)⟩ ::
      (frameColors s.frameBytes).drop (s.pixIdx.toNat + 1) := by
  have hlt := h.pixIdx_lt
  rw [pixelCount_eq] at hlt
  have hpixel := pixels_getElem? (s.frameBytes_getElem? (i := 3 * s.pixIdx.toNat) (by omega))
    (s.frameBytes_getElem? (by omega)) (s.frameBytes_getElem? (by omega))
  obtain ⟨hin, hcolor⟩ := List.getElem?_eq_some_iff.1
    (show (frameColors s.frameBytes)[s.pixIdx.toNat]? = some _ by rw [frameColors, List.getElem?_map, hpixel]; rfl)
  rw [State.pending_of_emit hp, List.drop_eq_getElem_cons hin, hcolor]

end Sys2Proof.Machine
end

section
/-! PROOFS. The agreement of trace and state: one rule for each thing that an operation's events can be: a reset,
nothing, a byte, a byte that completes a frame, a pixel (40_decoder.md rules R106, R107; 41_pixel.md rule R146). -/

namespace Sys2Proof.Machine

variable {s t : State}

/-- An accepted byte is fed to the decoder after those accepted before (R107). -/
theorem feedAll_bytesOf_sinceReset {es : List Event} {b : Byte} (htrace : t.trace = s.trace ++ es)
    (hes : Event.reset ∉ es) (hb : bytesOf es = [b]) :
    feedAll (bytesOf (sinceReset t.trace)) = (feedAll (bytesOf (sinceReset s.trace))).feed b := by
  rw [htrace, sinceReset_append hes, bytesOf_append, hb, feedAll_append_singleton]

/-- With no event since the last reset, the registers are those of reset. -/
theorem State.traceInv_of_sinceReset_nil (htrace : sinceReset t.trace = []) (hp : t.phase = .awaitLen)
    (hacc : t.accLen = 0) (hvalid : t.declValid = false) (hlen : t.frameLen = 0) : t.TraceInv where
  framing := by rw [htrace]; rfl
  decoder := by rw [htrace, State.accumulator_of_zero hacc, State.declared_of_absent hvalid]; rfl
  emitted := by rw [htrace, State.pending_of_ne_emit (by simp [hp])]; rfl
  frameLen := by rw [htrace, hlen]; rfl
  frame hemit := by simp [hp] at hemit

/-- The agreement reads neither `done_q` nor the ports and the cycle number. -/
theorem State.TraceInv.with_rest (h : s.TraceInv) (done : Bool) (inputs : List Pins) (cycle : Nat) :
    State.TraceInv { s with doneQ := done, inputs := inputs, cycle := cycle } :=
  ⟨h.framing, h.decoder, h.emitted, h.frameLen, h.frame⟩

/-- A byte that completes no frame: the registers follow the decoder, and no pixel is pending. -/
theorem State.TraceInv.after_byte {b : Byte} (h : s.TraceInv) (hs : s.phase ≠ .emit) (ht : t.phase ≠ .emit)
    (htrace : t.trace = s.trace ++ [.byteAccepted b]) (hlen : t.frameLen = s.frameLen)
    (hfeed : Decoder.feed ⟨s.accumulator, s.declared⟩ b = (⟨t.accumulator, t.declared⟩, none)) : t.TraceInv := by
  have hsince : sinceReset t.trace = sinceReset s.trace ++ [.byteAccepted b] := by
    rw [htrace, sinceReset_append (by simp)]
  have hlog := feedAll_bytesOf_sinceReset (b := b) htrace (by simp) (by simp)
  rw [FeedLog.feed_of_none (h.decoder ▸ hfeed)] at hlog
  have hemitted := h.emitted
  rw [State.pending_of_ne_emit hs] at hemitted
  exact
    { framing := by rw [hlog, hsince, ← h.framing]; simp
      decoder := by rw [hlog]
      emitted := by rw [hlog, ← hemitted, State.pending_of_ne_emit ht, hsince]; simp
      frameLen := by rw [hlog, hlen]; exact h.frameLen
      frame := fun hemit => absurd hemit ht }

/-- A byte that completes a frame: the frame's colours are the ones pending now. -/
theorem State.TraceInv.after_frame {b : Byte} {f : List Byte} (h : s.TraceInv) (hs : s.phase ≠ .emit)
    (htrace : t.trace = s.trace ++ [.byteAccepted b, .frameDone t.frameLen])
    (hfeed : Decoder.feed ⟨s.accumulator, s.declared⟩ b = (⟨t.accumulator, t.declared⟩, some f))
    (hlen : f.length = t.frameLen.toNat) (hpending : t.pending = frameColors f)
    (hframe : t.phase = .emit → t.frameBytes = f) : t.TraceInv := by
  have hsince : sinceReset t.trace = sinceReset s.trace ++ [.byteAccepted b, .frameDone t.frameLen] := by
    rw [htrace, sinceReset_append (by simp)]
  have hlog := feedAll_bytesOf_sinceReset (b := b) htrace (by simp) (by simp)
  rw [FeedLog.feed_of_some (h.decoder ▸ hfeed), hlen, BitVec.ofNat_toNat, BitVec.setWidth_eq] at hlog
  have hemitted := h.emitted
  rw [State.pending_of_ne_emit hs, List.append_nil] at hemitted
  exact
    { framing := by rw [hlog, hsince, ← h.framing]; simp
      decoder := by rw [hlog]
      emitted := by rw [hlog, List.flatMap_append, ← hemitted, hpending, hsince]; simp
      frameLen := by simp [hlog, hlen]
      frame := fun hemit => by simp [hlog, hframe hemit] }

/-- A pixel: its colour moves from the head of the pending ones to the end of the emitted ones. -/
theorem State.TraceInv.after_pixel {c : Color} (h : s.TraceInv) (htrace : t.trace = s.trace ++ [.pixelEmitted c])
    (hacc : t.accumulator = s.accumulator) (hdecl : t.declared = s.declared) (hlen : t.frameLen = s.frameLen)
    (hpending : s.pending = c :: t.pending) (hs : s.phase = .emit) (hframe : t.frameBytes = s.frameBytes) :
    t.TraceInv := by
  have hsince : sinceReset t.trace = sinceReset s.trace ++ [.pixelEmitted c] := by
    rw [htrace, sinceReset_append (by simp)]
  have hbytes : bytesOf (sinceReset t.trace) = bytesOf (sinceReset s.trace) := by simp [hsince]
  exact
    { framing := by rw [hbytes, ← h.framing]; simp [hsince]
      decoder := by rw [hbytes, hacc, hdecl]; exact h.decoder
      emitted := by rw [hbytes, ← h.emitted, hpending]; simp [hsince]
      frameLen := by rw [hbytes, hlen]; exact h.frameLen
      frame := fun _ => by rw [hbytes, hframe]; exact h.frame hs }

end Sys2Proof.Machine
end

section
/-! PROOFS. Each operation keeps the agreement of trace and state where it is selected: what the decoder does with the
byte is what the operation does with the registers (40_decoder.md rules R102 to R107). -/

namespace Sys2Proof.Machine

variable {s t : State} {b : Byte}

/-- The common part of FEED_HDR_LO and FEED_PAY: the byte is appended to the Accumulator, and nothing else of the
decoder changes. -/
theorem execFeedHdrLo_keeps_traceInv_of_feed (hs : s.phase ≠ .emit) (htr : s.TraceInv)
    (hfeed : Decoder.feed ⟨s.accumulator, s.declared⟩ b = (⟨s.accumulator ++ [b], s.declared⟩, none))
    (hx : execFeedHdrLo b s = .next t) : t.TraceInv := by
  obtain ⟨hin, ht⟩ := execFeedHdrLo_next hx
  have hacc : t.accumulator = s.accumulator ++ [b] := State.accumulator_append hin (ht ▸ rfl) (ht ▸ rfl)
  rw [← hacc] at hfeed
  subst ht
  exact htr.after_byte hs hs rfl rfl hfeed

/-- FEED_HDR_LO is the first outcome of `feed`. -/
theorem execFeedHdrLo_keeps_traceInv (hsel : s.Selects .feedHdrLo) (hinv : s.Inv) (htr : s.TraceInv)
    (hx : execFeedHdrLo b s = .next t) : t.TraceInv := by
  obtain ⟨hp, hne⟩ := hsel
  obtain ⟨-, hlen⟩ := (State.inv_awaitLen hp).1 hinv
  refine execFeedHdrLo_keeps_traceInv_of_feed (by simp [hp]) htr ?_ hx
  rw [State.accumulator_of_zero (hlen.accLen_eq_zero hne), State.declared_of_absent hlen.declValid]
  exact Decoder.feed_headerLow b

/-- FEED_HDR_HI is the second outcome of `feed`, with its two branches. -/
theorem execFeedHdrHi_keeps_traceInv (hsel : s.Selects .feedHdrHi) (hinv : s.Inv) (htr : s.TraceInv)
    (hx : execFeedHdrHi b s = .next t) : t.TraceInv := by
  obtain ⟨hp, hone⟩ := hsel
  obtain ⟨-, -, hvalid, -, -, -⟩ := (State.inv_awaitLen hp).1 hinv
  obtain ⟨-, rfl⟩ := execFeedHdrHi_next hx
  have hs : s.phase ≠ .emit := by simp [hp]
  have hfeed := Decoder.feed_headerHigh (s.cell 0) b
  rw [← State.accumulator_of_one hone, ← State.declared_of_absent hvalid] at hfeed
  by_cases hlen : headerLength (s.cell 0) b = 0
  · rw [if_pos hlen, State.declared_of_absent hvalid] at hfeed
    rw [hlen, headerDecoded_zero]
    exact htr.after_frame (f := []) hs (List.append_assoc ..) (State.declared_of_absent hvalid ▸ hfeed) rfl rfl
      Phase.noConfusion
  · rw [if_neg hlen] at hfeed
    rw [headerDecoded_pos _ hlen]
    exact htr.after_byte hs Phase.noConfusion rfl rfl hfeed

/-- FEED_PAY is the fourth outcome of `feed`. -/
theorem execFeedPay_keeps_traceInv (hsel : s.Selects .feedPay) (hinv : s.Inv) (htr : s.TraceInv)
    (hx : execFeedPay b s = .next t) : t.TraceInv := by
  obtain ⟨hp, hne⟩ := hsel
  obtain ⟨-, hvalid, -, -, -, -⟩ := (State.inv_awaitPay hp).1 hinv
  refine execFeedHdrLo_keeps_traceInv_of_feed (by simp [hp]) htr ?_ hx
  rw [State.declared_of_present hvalid, Decoder.feed_payload, State.accumulator_length, if_neg hne]

/-- FEED_LAST is the third outcome of `feed`; the cells below the old Declared Length are the frame. -/
theorem execFeedLast_keeps_traceInv (hsel : s.Selects .feedLast) (hinv : s.Inv) (htr : s.TraceInv)
    (hx : execFeedLast b s = .next t) : t.TraceInv := by
  obtain ⟨hp, hlast⟩ := hsel
  obtain ⟨-, hvalid, -, -, hpix, -⟩ := (State.inv_awaitPay hp).1 hinv
  obtain ⟨-, rfl⟩ := execFeedLast_next hx
  have hs : s.phase ≠ .emit := by simp [hp]
  have hfeed := Decoder.feed_payload s.accumulator s.declLen b
  rw [← State.declared_of_present hvalid, State.accumulator_length, if_pos hlast] at hfeed
  have hlength : (s.accumulator ++ [b]).length = s.declLen.toNat := by
    rw [List.length_append, State.accumulator_length, List.length_singleton, hlast]
  have hframe : (frameCompleted ({ s with accMem := s.accMem.write s.accLen.toNat b }.record (.byteAccepted b))
      s.declLen).frameBytes = s.accumulator ++ [b] := by
    rw [frameCompleted_eq, State.frameBytes, ← hlast]
    exact map_cell_range_succ rfl
  refine htr.after_frame (b := b) hs ?_ hfeed hlength ?_ fun _ => hframe
  · exact List.append_assoc ..
  · by_cases hcount : pixelCount s.declLen = 0
    · rw [frameColors_of_short (hlength ▸ hcount)]
      refine State.pending_of_ne_emit ?_
      rw [frameCompleted_phase, if_pos hcount]
      exact Phase.noConfusion
    · rw [State.pending_of_emit (by rw [frameCompleted_phase, if_neg hcount]), hframe, frameCompleted_pixIdx]
      exact congrArg (fun i : Len => List.drop i.toNat _) hpix

/-- EMIT_PIX: the pixels after the taken one stay pending. -/
theorem execEmitPix_keeps_traceInv (hsel : s.Selects .emitPix) (hinv : s.Inv) (htr : s.TraceInv)
    (hx : execEmitPix s = .next t) : t.TraceInv := by
  obtain ⟨hp, -⟩ := hsel
  obtain ⟨-, hemit⟩ := (State.inv_emit hp).1 hinv
  obtain ⟨hin, ht⟩ := execEmitPix_next hx
  have hsucc : (s.pixIdx + 1).toNat = s.pixIdx.toNat + 1 := toNat_succ_of_lt (by omega)
  have hpending : t.pending = (frameColors s.frameBytes).drop (s.pixIdx.toNat + 1) := by
    rw [State.pending_of_emit (ht ▸ hp), ht, ← hsucc]
    rfl
  subst ht
  exact htr.after_pixel rfl rfl rfl rfl (hpending ▸ hemit.pending_eq_cons hp) hp rfl

/-- EMIT_LAST: after the frame's last pixel none is pending. -/
theorem execEmitLast_keeps_traceInv (hsel : s.Selects .emitLast) (hinv : s.Inv) (htr : s.TraceInv)
    (hx : execEmitLast s = .next t) : t.TraceInv := by
  obtain ⟨hp, hlast⟩ := hsel
  obtain ⟨-, hemit⟩ := (State.inv_emit hp).1 hinv
  obtain ⟨-, rfl⟩ := execEmitLast_next hx
  refine htr.after_pixel rfl rfl rfl rfl ?_ hp rfl
  have hend : (frameColors s.frameBytes).length ≤ s.pixIdx.toNat + 1 := by
    rw [frameColors_length, State.frameBytes_length, hlast, pixelCount_eq]
  rw [hemit.pending_eq_cons hp, List.drop_eq_nil_of_le hend]
  exact congrArg _ (State.pending_of_ne_emit Phase.noConfusion).symm

/-- Every operation keeps the agreement where the registers select it. -/
theorem exec_keeps_traceInv {i : Instr} (hsel : s.Selects i.op) (hinv : s.Inv) (htr : s.TraceInv)
    (hx : exec i s = .next t) : t.TraceInv := by
  cases i with
  | reset => cases hx; exact State.traceInv_of_sinceReset_nil (sinceReset_append_reset _) rfl rfl rfl rfl
  | idle => cases hx; exact htr.with_rest ..
  | feedHdrLo b => exact execFeedHdrLo_keeps_traceInv hsel hinv htr hx
  | feedHdrHi b => exact execFeedHdrHi_keeps_traceInv hsel hinv htr hx
  | feedPay b => exact execFeedPay_keeps_traceInv hsel hinv htr hx
  | feedLast b => exact execFeedLast_keeps_traceInv hsel hinv htr hx
  | emitWait => cases hx; exact htr.with_rest ..
  | emitPix => exact execEmitPix_keeps_traceInv hsel hinv htr hx
  | emitLast => exact execEmitLast_keeps_traceInv hsel hinv htr hx
  | illegal => cases hx

end Sys2Proof.Machine
end

section
/-! PROOFS. How an operation moves the framing position (10_state.md rule R36; 40_decoder.md rule R108). -/

namespace Sys2Proof.Machine

/-- The position after an accepted byte `b`, where `first` is the byte in cell 0. -/
def FramingPosition.afterByte (first b : Byte) : FramingPosition → FramingPosition
  | .headerLow => .headerHigh
  | .headerHigh => if headerLength first b = 0 then .headerLow else .payload (headerLength first b).toNat
  | .payload remaining => if remaining = 1 then .headerLow else .payload (remaining - 1)

theorem State.framing_awaitLen {s : State} (h : s.phase = .awaitLen) :
    s.framing = some (if s.accLen = 1 then .headerHigh else .headerLow) := by
  simp [State.framing, h]

theorem State.framing_awaitPay {s : State} (h : s.phase = .awaitPay) :
    s.framing = some (.payload (s.declLen.toNat - s.accLen.toNat)) := by
  simp [State.framing, h]

theorem State.framing_emit {s : State} (h : s.phase = .emit) : s.framing = some .headerLow := by
  simp [State.framing, h]

@[simp] theorem State.endCycle_framing (s : State) : s.endCycle.framing = s.framing := rfl

/-- A header low byte is next wherever the phase is AWAIT_LEN or EMIT and no byte is in the Accumulator. -/
theorem State.framing_of_empty {s : State} (hp : s.phase = .awaitLen ∨ s.phase = .emit) (hacc : s.accLen = 0) :
    s.framing = some .headerLow := by
  rcases hp with hp | hp
  · rw [State.framing_awaitLen hp, hacc]; rfl
  · exact State.framing_emit hp

variable {i : Instr} {s t : State}

/-- An operation without an operand, other than RESET, keeps the framing position: the end of EMIT is still before a
header low byte (90_conflicts.md C4). -/
theorem exec_next_framing_of_no_operand (hsel : s.Selects i.op) (hinv : s.Inv) (hop : i.op ≠ .reset)
    (hnone : i.operand = none) (hx : exec i s = .next t) : t.framing = s.framing := by
  cases i with
  | reset => exact absurd rfl hop
  | idle => cases hx; rfl
  | emitWait => cases hx; rfl
  | emitPix => obtain ⟨-, rfl⟩ := execEmitPix_next hx; rfl
  | emitLast =>
    obtain ⟨-, hacc, -⟩ := (State.inv_emit hsel.1).1 hinv
    obtain ⟨-, rfl⟩ := execEmitLast_next hx
    rw [State.framing_emit hsel.1]
    exact State.framing_of_empty (.inl rfl) hacc
  | illegal => cases hx
  | feedHdrLo | feedHdrHi | feedPay | feedLast => cases hnone

/-- An operation with an operand moves the framing position as an accepted byte does. -/
theorem exec_next_framing_of_operand {b : Byte} (hsel : s.Selects i.op) (hinv : s.Inv) (hb : i.operand = some b)
    (hx : exec i s = .next t) : t.framing = s.framing.map (.afterByte (s.cell 0) b) := by
  cases i with
  | reset | idle | emitWait | emitPix | emitLast | illegal => cases hb
  | feedHdrLo _ =>
    cases hb
    obtain ⟨hp, hne⟩ := hsel
    obtain ⟨-, hlen⟩ := (State.inv_awaitLen hp).1 hinv
    obtain ⟨-, ht⟩ := execFeedHdrLo_next hx
    have hone : t.accLen = 1 := by
      rw [ht]
      exact congrArg (· + 1) (hlen.accLen_eq_zero hne)
    rw [State.framing_awaitLen hp, if_neg hne, State.framing_awaitLen (ht ▸ hp), if_pos hone]
    rfl
  | feedHdrHi _ =>
    cases hb
    obtain ⟨hp, hone⟩ := hsel
    obtain ⟨-, rfl⟩ := execFeedHdrHi_next hx
    rw [State.framing_awaitLen hp, if_pos hone, Option.map_some, FramingPosition.afterByte]
    by_cases hlen : headerLength (s.cell 0) b = 0
    · rw [if_pos hlen, hlen, headerDecoded_zero, State.framing_of_empty (.inl rfl) rfl]
    · rw [if_neg hlen, headerDecoded_pos _ hlen, State.framing_awaitPay rfl]
      rfl
  | feedPay _ =>
    cases hb
    obtain ⟨hp, hne⟩ := hsel
    obtain ⟨hin, ht⟩ := execFeedPay_next hx
    rw [State.framing_awaitPay hp, Option.map_some, FramingPosition.afterByte, if_neg (by omega),
      State.framing_awaitPay (ht ▸ hp), ht, toNat_succ_of_lt hin, Nat.sub_sub]
  | feedLast _ =>
    cases hb
    obtain ⟨hp, hlast⟩ := hsel
    obtain ⟨-, rfl⟩ := execFeedLast_next hx
    rw [State.framing_awaitPay hp, Option.map_some, FramingPosition.afterByte, if_pos (by omega)]
    refine State.framing_of_empty ?_ ?_
    · rw [frameCompleted_phase]; exact ite_eq_or_eq ..
    · rw [frameCompleted_eq]

end Sys2Proof.Machine
end

section
/-! PROOFS. A cycle without a byte, outside EMIT (40_decoder.md rule R101). -/

namespace Sys2Proof.Machine

/-- A cycle with `rst = 0` and `in_valid = 0` outside EMIT runs IDLE. -/
theorem step_of_no_byte {s : State} (hp : s.phase = .awaitLen ∨ s.phase = .awaitPay) (hrst : s.pins.rst = false)
    (hvalid : s.pins.inValid = false) :
    step s = .next { s with doneQ := false, inputs := s.inputs.tail, cycle := s.cycle + 1 } := by
  obtain ⟨-, hports⟩ := stateAndPortsSelectTheOperation s
  obtain ⟨hidle, -⟩ := hports hrst
  obtain ⟨hnext, -⟩ := stepRunsTheDecodedInstruction s _ _ (hidle hp hvalid) rfl
  exact hnext _ rfl

end Sys2Proof.Machine
end

section
/-! PROOFS. What the FEED operations answer where cell `acc_len` exists. -/

namespace Sys2Proof.Machine

@[simp] theorem headerDecoded_accLen (t : State) (len : Len) : (headerDecoded t len).accLen = 0 := by
  by_cases h : len = 0
  · rw [h, headerDecoded_zero]
  · rw [headerDecoded_pos t h]

section
variable {s : State} (b : Byte) (h : s.accLen.toNat < Config.accCapacity)
include h

theorem execFeedHdrLo_inside : execFeedHdrLo b s =
    .next { s with accMem := s.accMem.write s.accLen.toNat b, accLen := s.accLen + 1, doneQ := false,
                   trace := s.trace ++ [.byteAccepted b] } := by
  rw [execFeedHdrLo, acceptByte_inside s b h]; rfl

theorem execFeedHdrHi_inside : execFeedHdrHi b s =
    .next (headerDecoded ({ s with accMem := s.accMem.write s.accLen.toNat b }.record (.byteAccepted b))
      (headerLength (s.cell 0) b)) := by
  rw [execFeedHdrHi, memRead_zero, acceptByte_inside s b h]; rfl

theorem execFeedLast_inside : execFeedLast b s =
    .next (frameCompleted ({ s with accMem := s.accMem.write s.accLen.toNat b }.record (.byteAccepted b))
      s.declLen) := by
  rw [execFeedLast, acceptByte_inside s b h]; rfl

end

end Sys2Proof.Machine
end

section
/-! PROOFS. The family of 40_decoder.md: the decoder's operations, and the cycle operations as `feed`. -/

namespace Sys2Proof.Machine

/-- Settles O39: each operation keeps the agreement where it is selected, and the rising edge touches nothing of it. -/
theorem stepKeepsTraceAgreement : Obligations.StepKeepsTraceAgreement := by
  intro s t hinv htr h
  obtain ⟨i, u, hsel, hx, rfl⟩ := step_next_selects h
  exact (exec_keeps_traceInv hsel hinv htr hx).with_rest ..

/-- Both invariants hold right after RESET, and every step keeps them (R202). -/
theorem Reachable.inv_and_traceInv {s : State} (h : Reachable s) : s.Inv ∧ s.TraceInv := by
  induction h with
  | reset ports =>
    exact ⟨State.inv_of_awaitLen_empty rfl rfl rfl rfl rfl rfl, resetStateAgreesWithItsTrace ports⟩
  | step _ hstep ih =>
    obtain ⟨hinv, htr⟩ := ih
    exact ⟨stepKeepsTheInvariant _ _ hinv hstep, stepKeepsTraceAgreement _ _ hinv htr hstep⟩

/-- Settles O45: the trace invariant gives each of them from the accepted bytes alone. -/
theorem pausesDoNotChangeTheDecoding : Obligations.PausesDoNotChangeTheDecoding := by
  intro s s' hs hs' hbytes
  obtain ⟨-, hframing, hdecoder, hemitted, hlen, -⟩ := hs.inv_and_traceInv
  obtain ⟨-, hframing', hdecoder', hemitted', hlen', -⟩ := hs'.inv_and_traceInv
  rw [hbytes] at hframing hdecoder hemitted hlen
  obtain ⟨hacc, hdecl⟩ := Decoder.mk.inj (hdecoder.symm.trans hdecoder')
  exact ⟨hframing.trans hframing'.symm, hacc, hdecl, BitVec.eq_of_toNat_eq (hlen.trans hlen'.symm),
    hemitted.trans hemitted'.symm⟩

/-- Settles O46: reset selects RESET, a byte transfer an operation with the byte as its operand, and no other cycle an
operation with one. -/
theorem onlyAcceptedBytesAndResetMoveTheFraming : Obligations.OnlyAcceptedBytesAndResetMoveTheFraming := by
  intro s t hinv h
  obtain ⟨i, rest, u, hd, hx, rfl⟩ := step_next h
  have hop := op_of_decode hd
  have hoperand := operand_of_decode hd
  have hsel := hop ▸ selects_selectedOp s
  refine ⟨fun hrst => ?reset, fun hrst hnone => ?kept, fun hbyte => ?byte⟩
  case reset =>
    rw [decode_fetchBytes, selectedOp_eq_of_rst hrst] at hd
    cases hd
    cases hx
    exact State.framing_of_empty (.inl rfl) rfl
  case kept =>
    rw [if_neg (by simp [hnone])] at hoperand
    have hne : i.op ≠ .reset := by
      rw [hop, ne_eq, ← (transfers_iff_selectedOp s).1, hrst]
      exact Bool.false_ne_true
    rw [State.endCycle_framing, exec_next_framing_of_no_operand hsel hinv hne hoperand hx]
  case byte =>
    rw [if_pos hbyte] at hoperand
    rw [State.endCycle_framing, exec_next_framing_of_operand hsel hinv hoperand hx]
    refine ⟨fun hf => ?low, fun hf hlen => ?empty, fun hf hlen => ?length, fun hf => ?last, fun n hf => ?payload⟩ <;>
      rw [hf]
    case low | last | payload => rfl
    case empty => exact congrArg some (if_pos hlen)
    case length => exact congrArg some (if_neg hlen)

/-- Settles O47, by induction on the cycles: each is one IDLE. -/
theorem idleCyclesChangeNothing : Obligations.IdleCyclesChangeNothing := by
  intro ps rest s hp hinputs hquiet
  induction ps generalizing s with
  | nil =>
    subst hinputs
    rfl
  | cons p ps ih =>
    obtain ⟨⟨hrst, hvalid⟩, hquiet'⟩ := List.forall_mem_cons.1 hquiet
    have hpins : s.pins = p := s.pins_of_inputs p (ps ++ rest) hinputs
    have hstep := step_of_no_byte hp (hpins ▸ hrst) (hpins ▸ hvalid)
    rw [hinputs, List.cons_append, List.tail_cons] at hstep
    have hrun := ih { s with doneQ := false, inputs := ps ++ rest, cycle := s.cycle + 1 } hp rfl hquiet'
    rw [ite_self, Nat.add_assoc, Nat.add_comm 1] at hrun
    simpa only [List.length_cons, run, hstep, reduceCtorEq, if_false] using hrun

/-- Settles O12: IDLE writes `done_q` only. -/
theorem idleOperation : Obligations.IdleOperation := by
  refine ⟨fun dv d h => decode_of_selectOp (selectOp_of_mask 1 (h := h)) [d], fun s => ⟨s.withDone false, rfl, ?_⟩⟩
  exact ⟨rfl, rfl, rfl, rfl, rfl, rfl, rfl, rfl, rfl, fun _ => rfl, rfl⟩

/-- Settles O13: the one cell written, the counter's increment, and the rest untouched. -/
theorem feedHdrLoOperation : Obligations.FeedHdrLoOperation := by
  refine ⟨fun dv b h => decode_of_selectOp (selectOp_of_mask 2 (h := h)) [b], fun s b h => ?_⟩
  exact ⟨_, execFeedHdrLo_inside b h, s.accMem.read_write_same .., fun a ha => s.accMem.read_write_other _ ha,
    toNat_succ_of_lt h, rfl, rfl, rfl, rfl, rfl, rfl, rfl⟩

/-- Settles O14, branch by branch of the header's value. -/
theorem feedHdrHiOperation : Obligations.FeedHdrHiOperation := by
  refine ⟨fun dv b h => decode_of_selectOp (selectOp_of_mask 3 (h := h)) [b], fun s b L h hL => ?_⟩
  refine ⟨_, execFeedHdrHi_inside b h, ?_⟩
  rw [headerLength, ← hL, headerDecoded_accMem, headerDecoded_pixIdx, headerDecoded_accLen]
  refine ⟨s.accMem.read_write_same .., fun a ha => s.accMem.read_write_other _ ha, rfl, rfl, ?_, ?_⟩
  · rintro rfl
    rw [headerDecoded_zero]
    exact ⟨rfl, rfl, rfl, rfl, rfl, List.append_assoc ..⟩
  · intro hpos
    rw [headerDecoded_pos _ hpos]
    exact ⟨rfl, rfl, rfl, rfl, rfl, rfl⟩

/-- Settles O15: FEED_PAY has its own row, and does what FEED_HDR_LO does. -/
theorem feedPayOperation : Obligations.FeedPayOperation :=
  ⟨fun dv b h => decode_of_selectOp (selectOp_of_mask 4 (h := h)) [b], feedHdrLoOperation.2⟩

/-- Settles O16: the completed frame's registers; the phase is told from the pixel count. -/
theorem feedLastOperation : Obligations.FeedLastOperation := by
  refine ⟨fun dv b h => decode_of_selectOp (selectOp_of_mask 5 (h := h)) [b], fun s b h => ?_⟩
  refine ⟨_, execFeedLast_inside b h, ?_⟩
  rw [frameCompleted_eq]
  exact ⟨s.accMem.read_write_same .., fun a ha => s.accMem.read_write_other _ ha, rfl, rfl, rfl, rfl, rfl, rfl,
    fun hnone => if_pos hnone, fun hsome => if_neg hsome, List.append_assoc ..⟩

/-- Settles O29: the two outcomes for a payload byte are the branches of its one test. -/
theorem feedHasFourOutcomes : Obligations.FeedHasFourOutcomes := by
  refine ⟨Decoder.feed_headerLow, Decoder.feed_headerHigh, fun acc L b hlen => ?_, fun acc L b hlen => ?_⟩
  · rw [Decoder.feed_payload, if_pos hlen]
  · rw [Decoder.feed_payload, if_neg hlen]

end Sys2Proof.Machine
end

section
/-! PROOFS. The colour word (41_pixel.md rules R141, R147). -/

namespace Sys2Proof.Machine

variable (p : Pixel)

/-- Each channel is shifted to its own byte (R141). -/
theorem color_eq_append : color p = p.g ++ p.b ++ p.r := by
  refine BitVec.eq_of_getLsbD_eq fun i hi => ?_
  simp only [color, BitVec.getLsbD_or, BitVec.getLsbD_shiftLeft, BitVec.getLsbD_setWidth, BitVec.getLsbD_append]
  by_cases hr : i < 8
  · simp [hr, show i < 16 by omega, show i < 24 by omega]
  · have hr0 : p.r.getLsbD i = false := p.r.getLsbD_of_ge i (by omega)
    by_cases hb : i < 16
    · simp [hr, hr0, hb, hi, show i - 8 < 8 by omega, show i - 8 < 24 by omega]
    · have hb0 : p.b.getLsbD (i - 8) = false := p.b.getLsbD_of_ge _ (by omega)
      simp [hr, hr0, hb, hb0, hi, show ¬ i - 8 < 8 by omega, Nat.sub_sub, show i - 16 < 24 by omega]

theorem color_toNat : (color p).toNat = 65536 * p.g.toNat + 256 * p.b.toNat + p.r.toNat := by
  have hb := p.b.isLt
  rw [color_eq_append, BitVec.toNat_append, BitVec.toNat_append, ← Nat.shiftLeft_add_eq_or_of_lt p.r.isLt,
    ← Nat.shiftLeft_add_eq_or_of_lt hb, Nat.shiftLeft_eq, Nat.shiftLeft_eq]
  omega

/-- The three channels have no bit in common, so that `+` for `|` gives the same word. -/
theorem color_eq_add : color p = (p.g.setWidth 24 <<< 16) + (p.b.setWidth 24 <<< 8) + p.r.setWidth 24 := by
  have hr := p.r.isLt
  have hg := p.g.isLt
  have hb := p.b.isLt
  refine BitVec.eq_of_toNat_eq ?_
  simp only [color_toNat, BitVec.toNat_add, BitVec.toNat_shiftLeft, BitVec.toNat_setWidth, Nat.shiftLeft_eq]
  omega

theorem color_channels :
    (color p).extractLsb 23 16 = p.g ∧ (color p).extractLsb 15 8 = p.b ∧ (color p).extractLsb 7 0 = p.r := by
  have hr := p.r.isLt
  have hg := p.g.isLt
  have hb := p.b.isLt
  simp only [← BitVec.toNat_inj, BitVec.extractLsb_toNat, color_toNat, Nat.shiftRight_eq_div_pow]
  omega

theorem sinkWord_color : sinkWord (color p) = p.g ++ p.b ++ p.r ++ 0x00#8 := by
  have h := (color p).isLt
  rw [← color_eq_append]
  refine BitVec.eq_of_toNat_eq ?_
  rw [sinkWord, BitVec.toNat_shiftLeft, BitVec.toNat_setWidth, BitVec.toNat_append, BitVec.toNat_ofNat, Nat.zero_mod,
    Nat.or_zero, Nat.shiftLeft_eq, Nat.shiftLeft_eq]
  omega

end Sys2Proof.Machine
end

section
/-! PROOFS. A frame's remainder (41_pixel.md rule R140), and what the emission operations answer where the presented
pixel's cells exist (rules R143, R144). -/

namespace Sys2Proof.Machine

/-- The bytes after the last whole triple make no difference. -/
theorem pixels_take (f : List Byte) : pixels (f.take (3 * (f.length / 3))) = pixels f := by
  induction f using pixels.induct with
  | case1 r g b rest ih =>
    have hlen : (r :: g :: b :: rest).length / 3 = rest.length / 3 + 1 := by simp only [List.length_cons]; omega
    rw [hlen, Nat.mul_succ]
    simp only [List.take_succ_cons, pixels, ih]
  | case2 f hshort =>
    rw [Nat.div_eq_of_lt (length_lt_three hshort), List.take_zero, pixels, pixels]
    · exact hshort
    · simp

section
variable {s : State} (h : 3 * s.pixIdx.toNat + 2 < Config.accCapacity)
include h

theorem execEmitPix_inside : execEmitPix s =
    .next { s with pixIdx := s.pixIdx + 1, doneQ := false, trace := s.trace ++ [.pixelEmitted (color
      ⟨s.cell (3 * s.pixIdx.toNat), s.cell (3 * s.pixIdx.toNat + 1), s.cell (3 * s.pixIdx.toNat + 2)⟩)] } := by
  rw [execEmitPix, takePixel_inside s h]; rfl

theorem execEmitLast_inside : execEmitLast s =
    .next { s with pixIdx := 0, phase := .awaitLen, doneQ := false, trace := s.trace ++ [.pixelEmitted (color
      ⟨s.cell (3 * s.pixIdx.toNat), s.cell (3 * s.pixIdx.toNat + 1), s.cell (3 * s.pixIdx.toNat + 2)⟩)] } := by
  rw [execEmitLast, takePixel_inside s h]; rfl

end

/-- The presented pixel's three cells are written bytes of the frame (R30, R143). -/
theorem State.EmitInv.presented_written {s : State} (h : s.EmitInv) :
    3 * s.pixIdx.toNat + 2 ≤ 3 * (s.frameLen.toNat / 3) - 1 ∧
      ∀ k, k < 3 → (s.accMem.read (3 * s.pixIdx.toNat + k)).isSome := by
  have hlt := h.pixIdx_lt
  rw [pixelCount_eq] at hlt
  exact ⟨by omega, fun k hk => h.written _ (by omega)⟩

end Sys2Proof.Machine
end

section
/-! PROOFS. Under the invariant the selected operation of a cycle gives a next state (60_exceptions.md rule R170). -/

namespace Sys2Proof.Machine

/-- No operation that the registers select under the invariant stops: the counters it reads are within ACC. -/
theorem exec_next_of_selects {i : Instr} {s : State} (hsel : s.Selects i.op) (hinv : s.Inv) :
    ∃ t, exec i s = .next t := by
  obtain ⟨hpix, -, hacc, -⟩ := countersStayBounded s hinv
  cases hx : exec i s with
  | next t => exact ⟨t, rfl⟩
  | fault f =>
    rcases (operationsStopOnlyAtMissingCells i s f).1 hx with ⟨rfl, -⟩ | ⟨-, hout, -⟩ | ⟨-, hout, -⟩
    · exact absurd hsel hinv.phase_ne_reserved
    · omega
    · omega
  | refused r => exact absurd hx (exec_ne_refused i s r)

/-- The decoded operation of a cycle is the selected one. -/
theorem step_next_of_inv {s : State} (hinv : s.Inv) : ∃ t, step s = .next t := by
  obtain ⟨i, rest, hd⟩ := fetch_decodes s
  obtain ⟨t, hx⟩ := exec_next_of_selects (op_of_decode hd ▸ selects_selectedOp s) hinv
  obtain ⟨hnext, -⟩ := stepRunsTheDecodedInstruction s i rest hd (by cases i <;> rfl)
  exact ⟨_, hnext t hx⟩

end Sys2Proof.Machine
end

section
/-! PROOFS. A cycle in EMIT: the sink stalls (41_pixel.md rules R142, R145) or takes the first pending colour (rules
R143, R144, R146). -/

namespace Sys2Proof.Machine

/-- A cycle with `rst = 0` and `px_ready = 0` in EMIT runs EMIT_WAIT. -/
theorem step_of_stall {s : State} (hp : s.phase = .emit) (hrst : s.pins.rst = false) (hready : s.pins.pxReady = false) :
    step s = .next { s with doneQ := false, inputs := s.inputs.tail, cycle := s.cycle + 1 } := by
  obtain ⟨-, hports⟩ := stateAndPortsSelectTheOperation s
  obtain ⟨-, -, -, -, -, hwait, -⟩ := hports hrst
  obtain ⟨hnext, -⟩ := stepRunsTheDecodedInstruction s _ _ (hwait hp hready) rfl
  exact hnext _ rfl

/-- The presented pixel is told from `pix_idx` and the cells. -/
theorem presentedPixel_congr {s t : State} (hpix : t.pixIdx = s.pixIdx) (hmem : t.accMem = s.accMem) :
    presentedPixel t = presentedPixel s := by
  have hread : memRead t = memRead s := by
    funext i
    rw [memRead, memRead, State.cell_congr (s := s) (t := t) (by rw [hmem])]
  rw [presentedPixel, presentedPixel, hpix, hread]

/-- And so is `px_color` during EMIT (R35). -/
theorem State.pxColor_congr {s t : State} (hs : s.phase = .emit) (ht : t.phase = .emit)
    (hpix : t.pixIdx = s.pixIdx) (hmem : t.accMem = s.accMem) : t.pxColor = s.pxColor := by
  simp [State.pxColor, hs, ht, presentedPixel_congr hpix hmem]

/-- A pixel transfer takes the first pending colour, and leaves the Accumulator, the cells and `frame_len`. -/
theorem exec_next_of_pixelTransfer {i : Instr} {s t : State} (hop : i.op ∈ [Op.emitPix, .emitLast])
    (hsel : s.Selects i.op) (hinv : s.Inv) (hx : exec i s = .next t) :
    (∃ c, t.trace = s.trace ++ [.pixelEmitted c] ∧ s.pending = c :: t.pending) ∧
    (t.phase = .emit ∨ t.phase = .awaitLen) ∧ t.accLen = s.accLen ∧ t.declValid = s.declValid ∧
    t.accMem = s.accMem ∧ t.frameLen = s.frameLen := by
  cases i with
  | emitPix =>
    obtain ⟨hp, -⟩ := hsel
    obtain ⟨-, hemit⟩ := (State.inv_emit hp).1 hinv
    obtain ⟨hin, ht⟩ := execEmitPix_next hx
    have hsucc : (s.pixIdx + 1).toNat = s.pixIdx.toNat + 1 := toNat_succ_of_lt (by omega)
    have hpending : t.pending = (frameColors s.frameBytes).drop (s.pixIdx.toNat + 1) := by
      rw [State.pending_of_emit (ht ▸ hp), ht, ← hsucc]
      rfl
    subst ht
    exact ⟨⟨_, rfl, hpending ▸ hemit.pending_eq_cons hp⟩, .inl hp, rfl, rfl, rfl, rfl⟩
  | emitLast =>
    obtain ⟨hp, hlast⟩ := hsel
    obtain ⟨-, hemit⟩ := (State.inv_emit hp).1 hinv
    obtain ⟨-, rfl⟩ := execEmitLast_next hx
    have hend : (frameColors s.frameBytes).length ≤ s.pixIdx.toNat + 1 := by
      rw [frameColors_length, State.frameBytes_length, hlast, pixelCount_eq]
    refine ⟨⟨_, rfl, ?_⟩, .inr rfl, rfl, rfl, rfl, rfl⟩
    rw [hemit.pending_eq_cons hp, List.drop_eq_nil_of_le hend, State.pending_of_ne_emit Phase.noConfusion]
  | reset | idle | feedHdrLo | feedHdrHi | feedPay | feedLast | emitWait | illegal => simp [Instr.op] at hop

/-- In a cycle with `rst = 0` and `px_ready = 1` in EMIT the sink takes the first pending colour. -/
theorem step_of_ready_sink {s : State} (hinv : s.Inv) (hp : s.phase = .emit) (hrst : s.pins.rst = false)
    (hready : s.pins.pxReady = true) : ∃ t, step s = .next t ∧
      (∃ c, t.trace = s.trace ++ [.pixelEmitted c] ∧ s.pending = c :: t.pending) ∧
      (t.phase = .emit ∨ t.phase = .awaitLen) ∧ t.accLen = s.accLen ∧ t.declValid = s.declValid ∧
      t.accMem = s.accMem ∧ t.frameLen = s.frameLen ∧ t.inputs = s.inputs.tail := by
  obtain ⟨t, hstep⟩ := step_next_of_inv hinv
  obtain ⟨i, rest, u, hd, hx, rfl⟩ := step_next hstep
  have hselected := op_of_decode hd
  have hop : i.op ∈ [Op.emitPix, .emitLast] := by
    rw [hselected, selectedOp_eq_of_emit hrst hp, if_pos hready]
    split_ifs <;> simp
  obtain ⟨htaken, hphase, hacc, hvalid, hmem, hlen⟩ :=
    exec_next_of_pixelTransfer hop (hselected ▸ selects_selectedOp s) hinv hx
  obtain ⟨hinputs, -⟩ := operationsLeaveThePortsAlone _ _ _ hx
  exact ⟨_, hstep, htaken, hphase, hacc, hvalid, hmem, hlen, congrArg List.tail hinputs⟩

/-- During EMIT there is a pending colour for each pixel from `pix_idx` on. -/
theorem State.pending_length_of_emit {s : State} (hp : s.phase = .emit) :
    s.pending.length = s.frameLen.toNat / 3 - s.pixIdx.toNat := by
  rw [State.pending_of_emit hp, List.length_drop, frameColors_length, State.frameBytes_length]

theorem State.Inv.pending_ne_nil {s : State} (hinv : s.Inv) (hp : s.phase = .emit) : s.pending ≠ [] := by
  obtain ⟨-, hemit⟩ := (State.inv_emit hp).1 hinv
  rw [hemit.pending_eq_cons hp]
  exact List.cons_ne_nil _ _

/-- A sink that is ready for as many cycles as colours are pending takes them all, in order (R146). -/
theorem run_of_ready_sink {ps rest : List Pins} {s : State} (hinv : s.Inv) (hp : s.phase = .emit)
    (hinputs : s.inputs = ps ++ rest) (hports : ∀ p, p ∈ ps → p.rst = false ∧ p.pxReady = true)
    (hlen : ps.length = s.pending.length) :
    ∃ t, run ps.length s = .next t ∧ t.Inv ∧ t.trace = s.trace ++ s.pending.map .pixelEmitted ∧
      t.phase = .awaitLen ∧ t.accLen = s.accLen ∧ t.declValid = s.declValid ∧ t.accMem = s.accMem ∧
      t.frameLen = s.frameLen ∧ t.inputs = rest := by
  induction ps generalizing s with
  | nil => exact absurd (List.length_eq_zero_iff.1 hlen.symm) (hinv.pending_ne_nil hp)
  | cons p ps ih =>
    obtain ⟨⟨hrst, hready⟩, hports'⟩ := List.forall_mem_cons.1 hports
    have hpins : s.pins = p := s.pins_of_inputs p (ps ++ rest) hinputs
    obtain ⟨u, hstep, ⟨c, htrace, hpending⟩, hphase, hacc, hvalid, hmem, hframe, hinputs'⟩ :=
      step_of_ready_sink hinv hp (hpins ▸ hrst) (hpins ▸ hready)
    have hinv' := stepKeepsTheInvariant s u hinv hstep
    rw [hinputs, List.cons_append, List.tail_cons] at hinputs'
    rw [hpending, List.length_cons, List.length_cons, Nat.add_right_cancel_iff] at hlen
    rw [List.length_cons, run, hstep, hpending, List.map_cons, ← hacc, ← hvalid, ← hmem, ← hframe]
    rcases hphase with hemit | hdone
    · obtain ⟨t, hrun, hinvt, htracet, hkept⟩ := ih hinv' hemit hinputs' hports' hlen
      exact ⟨t, hrun, hinvt, by rw [htracet, htrace, List.append_assoc, List.singleton_append], hkept⟩
    · have hnone : u.pending = [] := State.pending_of_ne_emit (by simp [hdone])
      rw [hnone, List.length_nil, List.length_eq_zero_iff] at hlen
      subst hlen
      exact ⟨u, rfl, hinv', by rw [htrace, hnone, List.map_nil], hdone, rfl, rfl, rfl, rfl, hinputs'⟩

end Sys2Proof.Machine
end

section
/-! PROOFS. What `feed` (40_decoder.md rule R100) makes of a whole message (30_encoding.md rules R70, R79): its payload
is the one frame, and for a message of pixels that frame's pixels are those of the message. -/

namespace Sys2Proof.Machine

/-- A byte moves the log's decoder, and adds the frame it completes, if it completes one. -/
theorem FeedLog.feed_decoder_frames (l : FeedLog) (b : Byte) :
    (l.feed b).decoder = (l.decoder.feed b).1 ∧ (l.feed b).frames = l.frames ++ (l.decoder.feed b).2.toList := by
  cases hfeed : l.decoder.feed b with
  | mk d f =>
    cases f with
    | none => rw [FeedLog.feed_of_none hfeed]; exact ⟨rfl, (List.append_nil _).symm⟩
    | some f => rw [FeedLog.feed_of_some hfeed]; exact ⟨rfl, rfl⟩

/-- Bytes to come take no completed frame back. -/
theorem foldl_feed_frames_prefix (bytes : List Byte) (l : FeedLog) :
    l.frames <+: (bytes.foldl FeedLog.feed l).frames := by
  induction bytes generalizing l with
  | nil => exact List.prefix_rfl
  | cons b bytes ih =>
    obtain ⟨-, hframes⟩ := l.feed_decoder_frames b
    exact (hframes ▸ List.prefix_append ..).trans (ih (l.feed b))

theorem feedAll_append (bytes bytes' : List Byte) :
    feedAll (bytes ++ bytes') = bytes'.foldl FeedLog.feed (feedAll bytes) :=
  List.foldl_append

theorem feedAll_frames_prefix (bytes bytes' : List Byte) :
    (feedAll bytes).frames <+: (feedAll (bytes ++ bytes')).frames := by
  rw [feedAll_append]
  exact foldl_feed_frames_prefix bytes' _

/-- The payload bytes still to come complete the frame, and only with the last of them. -/
theorem foldl_feed_payload {acc rest : List Byte} {L : Len} {l : FeedLog} (hdecoder : l.decoder = ⟨acc, some L⟩)
    (hlen : acc.length + rest.length = L.toNat) (hrest : rest ≠ []) :
    (rest.foldl FeedLog.feed l).decoder = .initial ∧
      (rest.foldl FeedLog.feed l).frames = l.frames ++ [acc ++ rest] := by
  induction rest generalizing acc l with
  | nil => exact absurd rfl hrest
  | cons b rest ih =>
    obtain ⟨hd, hf⟩ := l.feed_decoder_frames b
    rw [List.length_cons] at hlen
    rw [hdecoder, Decoder.feed_payload] at hd hf
    rw [List.foldl_cons]
    by_cases hlast : rest = []
    · subst hlast
      rw [if_pos (by simpa using hlen)] at hd hf
      exact ⟨hd, hf⟩
    · have hmore : acc.length + 1 ≠ L.toNat := by
        have hpos := List.length_pos_of_ne_nil hlast
        omega
      rw [if_neg hmore] at hd hf
      obtain ⟨hd', hf'⟩ := ih hd (by rw [List.length_append, List.length_singleton]; omega) hlast
      exact ⟨hd', by rw [hf', hf]; simp⟩

/-- The header of a payload that is not empty declares its length. -/
theorem feedAll_header {n : Nat} (hpos : n ≠ 0) (hn : n ≤ 65535) :
    (feedAll [BitVec.ofNat 8 n, BitVec.ofNat 8 (n / 256)]).decoder = ⟨[], some (BitVec.ofNat 16 n)⟩ ∧
      (feedAll [BitVec.ofNat 8 n, BitVec.ofNat 8 (n / 256)]).frames = [] := by
  have hne : BitVec.ofNat 16 n ≠ 0 := by
    rw [ne_eq, ← BitVec.toNat_inj, BitVec.toNat_ofNat, Nat.mod_eq_of_lt (by omega)]
    exact hpos
  have hlow : (feedAll [BitVec.ofNat 8 n]).decoder = ⟨[BitVec.ofNat 8 n], none⟩ := rfl
  obtain ⟨hd, hf⟩ := (feedAll [BitVec.ofNat 8 n]).feed_decoder_frames (BitVec.ofNat 8 (n / 256))
  rw [← feedAll_append_singleton, hlow, Decoder.feed_headerHigh, headerLength_ofNat, if_neg hne] at hd hf
  exact ⟨hd, hf⟩

/-- A message is one frame, its payload, and leaves the decoder at the next header. -/
theorem feedAll_message {payload : List Byte} (hlen : payload.length ≤ 65535) :
    (feedAll (message payload)).decoder = .initial ∧ (feedAll (message payload)).frames = [payload] := by
  by_cases hempty : payload = []
  · subst hempty
    exact ⟨rfl, rfl⟩
  · obtain ⟨hd, hf⟩ := feedAll_header (mt List.length_eq_zero_iff.1 hempty) hlen
    have hpayload := foldl_feed_payload hd
      (by rw [List.length_nil, BitVec.toNat_ofNat, Nat.mod_eq_of_lt (by omega), Nat.zero_add]) hempty
    rwa [hf, ← feedAll_append] at hpayload

/-- The pixels of a list of pixels' bytes are that list. -/
theorem pixels_flatMap_bytes (ps : List Pixel) : pixels (ps.flatMap Pixel.bytes) = ps := by
  induction ps with
  | nil => rfl
  | cons p ps ih => exact congrArg (p :: ·) ih

theorem flatMap_bytes_length (ps : List Pixel) : (ps.flatMap Pixel.bytes).length = 3 * ps.length := by
  induction ps with
  | nil => rfl
  | cons p ps ih => rw [List.flatMap_cons, List.length_append, ih, List.length_cons, Nat.mul_succ, Nat.add_comm]; rfl

/-- The bytes of `.pixels` (R79). -/
def pixelMessage (ps : List Pixel) : List Byte := message (ps.flatMap Pixel.bytes)

theorem pixelMessage_length (ps : List Pixel) : (pixelMessage ps).length = 2 + 3 * ps.length := by
  rw [pixelMessage, message, List.length_cons, List.length_cons, flatMap_bytes_length]
  omega

/-- At most 21845 pixels fit a frame (R148), and the message's frame has exactly their colours. -/
theorem feedAll_pixelMessage {ps : List Pixel} (hlen : ps.length ≤ 21845) :
    (feedAll (pixelMessage ps)).decoder = .initial ∧
      (feedAll (pixelMessage ps)).frames.flatMap frameColors = ps.map color := by
  have hbytes : (ps.flatMap Pixel.bytes).length ≤ 65535 := by
    rw [flatMap_bytes_length]
    omega
  obtain ⟨hdecoder, hframes⟩ := feedAll_message hbytes
  refine ⟨hdecoder, ?_⟩
  rw [pixelMessage, hframes, List.flatMap_singleton, frameColors, pixels_flatMap_bytes]

end Sys2Proof.Machine
end

section
/-! PROOFS. What a state has decoded since some earlier one, whatever its trace was then: each operation does with an
accepted byte what `feed` does (40_decoder.md rule R107), and each completed frame's colours become pending and are
emitted in order (41_pixel.md rule R146). It is the decoder's and the emission's part of `TraceInv` for a run that does
not begin at a reset. -/

namespace Sys2Proof.Machine

variable {i : Instr} {s t : State}

/-- Since the colours `before` were emitted, the bytes `accepted` have been decoded from an empty Accumulator on. -/
structure State.HasDecoded (before : List Color) (accepted : List Byte) (s : State) : Prop where
  decoder : (feedAll accepted).decoder = ⟨s.accumulator, s.declared⟩
  emitted : colorsOf s.trace ++ s.pending = before ++ (feedAll accepted).frames.flatMap frameColors

/-- No byte has been accepted yet. -/
theorem State.hasDecoded_nil (hp : s.phase ≠ .emit) (hacc : s.accLen = 0) (hvalid : s.declValid = false) :
    s.HasDecoded (colorsOf s.trace) [] where
  decoder := by rw [State.accumulator_of_zero hacc, State.declared_of_absent hvalid]; rfl
  emitted := by rw [State.pending_of_ne_emit hp]; rfl

/-- The common part of FEED_HDR_LO and FEED_PAY: the byte is appended to the Accumulator. -/
theorem execFeedHdrLo_accumulator {b : Byte} (hx : execFeedHdrLo b s = .next t) :
    t.accumulator = s.accumulator ++ [b] ∧ t.declared = s.declared ∧ t.phase = s.phase := by
  obtain ⟨hin, rfl⟩ := execFeedHdrLo_next hx
  exact ⟨State.accumulator_append hin rfl rfl, rfl, rfl⟩

/-- The cells of the frame FEED_LAST completes are the Accumulator and the byte. -/
theorem execFeedLast_frameBytes {b : Byte} (hlast : s.accLen.toNat + 1 = s.declLen.toNat)
    (hx : execFeedLast b s = .next t) : t.frameBytes = s.accumulator ++ [b] := by
  obtain ⟨-, rfl⟩ := execFeedLast_next hx
  rw [frameCompleted_eq, State.frameBytes, ← hlast]
  exact map_cell_range_succ rfl

/-- At the first pixel of a frame all its colours are pending, and without one there is none to be. -/
theorem State.pending_of_first_pixel (hpix : s.pixIdx = 0)
    (hp : s.phase = if pixelCount s.frameLen = 0 then .awaitLen else .emit) :
    s.pending = frameColors s.frameBytes := by
  by_cases hcount : pixelCount s.frameLen = 0
  · rw [frameColors_of_short (s.frameBytes_length ▸ hcount), State.pending_of_ne_emit]
    rw [hp, if_pos hcount]
    exact Phase.noConfusion
  · rw [State.pending_of_emit (by rw [hp, if_neg hcount]), hpix]
    rfl

/-- An operation with an operand feeds it to the decoder; the colours of the frame it completes become pending. -/
theorem exec_next_feeds {b : Byte} (hsel : s.Selects i.op) (hinv : s.Inv) (hb : i.operand = some b)
    (hx : exec i s = .next t) : s.phase ≠ .emit ∧ ∃ f : Option (List Byte),
      Decoder.feed ⟨s.accumulator, s.declared⟩ b = (⟨t.accumulator, t.declared⟩, f) ∧
      t.pending = f.toList.flatMap frameColors := by
  cases i with
  | reset | idle | emitWait | emitPix | emitLast | illegal => cases hb
  | feedHdrLo _ =>
    cases hb
    obtain ⟨hp, hne⟩ := hsel
    obtain ⟨-, hawait⟩ := (State.inv_awaitLen hp).1 hinv
    obtain ⟨hacc, hdecl, hphase⟩ := execFeedHdrLo_accumulator hx
    refine ⟨by simp [hp], none, ?_, State.pending_of_ne_emit (by simp [hphase, hp])⟩
    rw [hacc, hdecl, State.accumulator_of_zero (hawait.accLen_eq_zero hne), State.declared_of_absent hawait.declValid]
    exact Decoder.feed_headerLow b
  | feedHdrHi _ =>
    cases hb
    obtain ⟨hp, hone⟩ := hsel
    obtain ⟨-, hawait⟩ := (State.inv_awaitLen hp).1 hinv
    obtain ⟨-, rfl⟩ := execFeedHdrHi_next hx
    refine ⟨by simp [hp], ?_⟩
    rw [State.accumulator_of_one hone, State.declared_of_absent hawait.declValid, Decoder.feed_headerHigh]
    by_cases hlen : headerLength (s.cell 0) b = 0
    · rw [if_pos hlen, hlen, headerDecoded_zero]
      refine ⟨some [], ?_, State.pending_of_ne_emit Phase.noConfusion⟩
      rw [State.declared_of_absent rfl]
      rfl
    · rw [if_neg hlen, headerDecoded_pos _ hlen]
      exact ⟨none, rfl, State.pending_of_ne_emit Phase.noConfusion⟩
  | feedPay _ =>
    cases hb
    obtain ⟨hp, hne⟩ := hsel
    obtain ⟨-, hawait⟩ := (State.inv_awaitPay hp).1 hinv
    obtain ⟨hacc, hdecl, hphase⟩ := execFeedHdrLo_accumulator hx
    refine ⟨by simp [hp], none, ?_, State.pending_of_ne_emit (by simp [hphase, hp])⟩
    rw [hacc, hdecl, State.declared_of_present hawait.declValid, Decoder.feed_payload, State.accumulator_length,
      if_neg hne]
  | feedLast _ =>
    cases hb
    obtain ⟨hp, hlast⟩ := hsel
    obtain ⟨-, hawait⟩ := (State.inv_awaitPay hp).1 hinv
    have hframe := execFeedLast_frameBytes hlast hx
    obtain ⟨-, rfl⟩ := execFeedLast_next hx
    refine ⟨by simp [hp], some (s.accumulator ++ [b]), ?_, ?_⟩
    · rw [State.declared_of_present hawait.declValid, Decoder.feed_payload, State.accumulator_length, if_pos hlast]
      rfl
    · rw [State.pending_of_first_pixel, hframe, Option.toList_some, List.flatMap_singleton]
      · rw [frameCompleted_pixIdx]; exact hawait.pixIdx
      · rw [frameCompleted_phase]; rfl

/-- The events of an operation with an operand are no colours. -/
theorem colorsOf_of_operand {b : Byte} {n : Len} {es : List Event} (hb : i.operand = some b)
    (hes : i.Records s n es) : colorsOf es = [] := by
  cases i with
  | reset | idle | emitWait | emitPix | emitLast | illegal => cases hb
  | feedHdrLo b | feedPay b | feedLast b => rw [show es = _ from hes]; rfl
  | feedHdrHi b => rcases hes with rfl | rfl <;> rfl

/-- A taken colour goes from the pending ones to the emitted ones. -/
theorem colors_of_taken
    (h : ∃ c, t.trace = s.trace ++ [.pixelEmitted c] ∧ s.pending = c :: t.pending) :
    colorsOf t.trace ++ t.pending = colorsOf s.trace ++ s.pending := by
  obtain ⟨c, htrace, hpending⟩ := h
  simp [htrace, hpending]

/-- An operation without an operand, other than RESET, leaves the decoder; the colour it emits was pending. -/
theorem exec_next_of_no_operand (hsel : s.Selects i.op) (hinv : s.Inv) (hop : i.op ≠ .reset)
    (hnone : i.operand = none) (hx : exec i s = .next t) :
    t.accumulator = s.accumulator ∧ t.declared = s.declared ∧
      colorsOf t.trace ++ t.pending = colorsOf s.trace ++ s.pending := by
  cases i with
  | reset => exact absurd rfl hop
  | idle => cases hx; exact ⟨rfl, rfl, rfl⟩
  | emitWait => cases hx; exact ⟨rfl, rfl, rfl⟩
  | emitPix =>
    obtain ⟨htaken, -⟩ := exec_next_of_pixelTransfer (by simp [Instr.op]) hsel hinv hx
    obtain ⟨-, rfl⟩ := execEmitPix_next hx
    exact ⟨rfl, rfl, colors_of_taken htaken⟩
  | emitLast =>
    obtain ⟨htaken, -⟩ := exec_next_of_pixelTransfer (by simp [Instr.op]) hsel hinv hx
    obtain ⟨-, rfl⟩ := execEmitLast_next hx
    exact ⟨rfl, rfl, colors_of_taken htaken⟩
  | illegal => cases hx
  | feedHdrLo | feedHdrHi | feedPay | feedLast => cases hnone

/-- An operation other than RESET decodes its operand, if it has one, after the bytes accepted before. -/
theorem exec_next_hasDecoded {before : List Color} {accepted : List Byte} (hsel : s.Selects i.op) (hinv : s.Inv)
    (hop : i.op ≠ .reset) (h : s.HasDecoded before accepted) (hx : exec i s = .next t) :
    t.HasDecoded before (accepted ++ i.operand.toList) := by
  cases hoperand : i.operand with
  | none =>
    obtain ⟨hacc, hdecl, hcolors⟩ := exec_next_of_no_operand hsel hinv hop hoperand hx
    rw [Option.toList_none, List.append_nil]
    exact ⟨by rw [hacc, hdecl, h.decoder], hcolors.trans h.emitted⟩
  | some b =>
    obtain ⟨hs, f, hfeed, hpending⟩ := exec_next_feeds hsel hinv hoperand hx
    obtain ⟨-, -, es, htrace, hes⟩ := exec_next_records hx
    obtain ⟨hd, hf⟩ := (feedAll accepted).feed_decoder_frames b
    rw [h.decoder, hfeed] at hd hf
    have hemitted := h.emitted
    rw [State.pending_of_ne_emit hs, List.append_nil] at hemitted
    rw [Option.toList_some]
    exact
      { decoder := by rw [feedAll_append_singleton, hd]
        emitted := by
          rw [feedAll_append_singleton, hf, htrace, colorsOf_append, colorsOf_of_operand hoperand hes, List.append_nil,
            hemitted, hpending, List.flatMap_append, List.append_assoc] }

/-- The byte accepted in this cycle, if one is (R34). -/
def State.acceptedNow (s : State) : Option Byte := if s.byteTransfer then some s.pins.inData else none

/-- A cycle without reset decodes the byte it accepts. -/
theorem step_next_hasDecoded {before : List Color} {accepted : List Byte} (hinv : s.Inv) (hrst : s.pins.rst = false)
    (h : s.HasDecoded before accepted) (hstep : step s = .next t) :
    t.HasDecoded before (accepted ++ s.acceptedNow.toList) := by
  obtain ⟨i, rest, u, hd, hx, rfl⟩ := step_next hstep
  have hselected := op_of_decode hd
  have hop : i.op ≠ .reset := by
    rw [hselected, ne_eq, ← (transfers_iff_selectedOp s).1, hrst]
    exact Bool.false_ne_true
  rw [State.acceptedNow, ← operand_of_decode hd]
  obtain ⟨hdecoder, hemitted⟩ := exec_next_hasDecoded (hselected ▸ selects_selectedOp s) hinv hop h hx
  exact ⟨hdecoder, hemitted⟩

end Sys2Proof.Machine
end

section
/-! PROOFS. One cycle with the bench at the ports (30_encoding.md rule R79; 60_exceptions.md rules R178, R179): what
the bench drives, and what the source has left after the cycle. -/

namespace Sys2Proof.Machine

/-- The byte a source item presents. -/
def SourceItem.byte? : SourceItem → Option Byte
  | .byte d => some d
  | .idle | .reset => none

/-- The bytes the source has still to send. -/
def Bench.bytesLeft (b : Bench) : List Byte := b.source.filterMap SourceItem.byte?

/-- The state with the bench's values on this cycle's ports. -/
def Bench.driving (b : Bench) (s : State) : State := s.withPins (b.pins s.cycle)

variable {b : Bench} {s : State}

@[simp] theorem Bench.driving_pins : (b.driving s).pins = b.pins s.cycle := s.withPins_pins _

@[simp] theorem Bench.driving_phase : (b.driving s).phase = s.phase := rfl

@[simp] theorem Bench.driving_trace : (b.driving s).trace = s.trace := rfl

theorem Bench.driving_inv (hinv : s.Inv) : (b.driving s).Inv := hinv.with_rest ..

@[simp] theorem Bench.pins_pxReady (n : Nat) : (b.pins n).pxReady = b.sink.headD true := by
  rw [Bench.pins]; split <;> rfl

@[simp] theorem Bench.advance_sink (accepted : Bool) : (b.advance accepted).sink = b.sink.tail := by
  rw [Bench.advance]; split <;> rfl

/-- Only a reset item of the source resets the block. -/
theorem Bench.pins_rst (hreset : SourceItem.reset ∉ b.source) (n : Nat) : (b.pins n).rst = false := by
  obtain ⟨source, sink⟩ := b
  cases source with
  | nil => rfl
  | cons item rest =>
    cases item with
    | byte _ | idle => rfl
    | reset => exact absurd List.mem_cons_self hreset

/-- What the source has left is what it had, or that without its first item. -/
theorem Bench.advance_source (accepted : Bool) :
    (b.advance accepted).source = b.source ∨ (b.advance accepted).source = b.source.tail := by
  obtain ⟨source, sink⟩ := b
  cases source with
  | nil => exact .inl rfl
  | cons item rest =>
    cases item with
    | byte _ => cases accepted <;> simp [Bench.advance]
    | idle | reset => exact .inr rfl

/-- The byte accepted in a cycle is the source's next one, and is not sent again (R178). -/
theorem Bench.bytesLeft_advance : b.bytesLeft =
    (b.driving s).acceptedNow.toList ++ (b.advance (b.driving s).byteTransfer).bytesLeft := by
  obtain ⟨source, sink⟩ := b
  rw [State.acceptedNow]
  cases source with
  | nil => rfl
  | cons item rest =>
    cases item with
    | byte d =>
      rw [Bench.driving_pins]
      cases (Bench.driving ⟨.byte d :: rest, sink⟩ s).byteTransfer <;> rfl
    | idle => rfl
    | reset => rfl

/-- Under the invariant a bench cycle is one step of the block. -/
theorem benchStep_next_of_inv (hinv : s.Inv) : ∃ t, step (b.driving s) = .next t ∧
    benchStep b s = .next (b.advance (b.driving s).byteTransfer, t) := by
  obtain ⟨t, hstep⟩ := step_next_of_inv (b.driving_inv hinv)
  refine ⟨t, hstep, ?_⟩
  rw [Bench.driving] at hstep
  simp only [benchStep, hstep, Bench.driving]

end Sys2Proof.Machine
end

section
/-! PROOFS. Sending a message (41_pixel.md rule R148): the invariant of a block that decodes the bytes of a bench, and a
count that each cycle lowers until all is done. -/

namespace Sys2Proof.Machine

/-- The block is decoding `bytes`, of which the source has the rest, since the colours `before` were emitted. -/
structure Bench.Sends (before : List Color) (bytes : List Byte) (b : Bench) (s : State) : Prop where
  inv : s.Inv
  noReset : SourceItem.reset ∉ b.source
  emitted : before <+: colorsOf s.trace
  decoded : ∃ accepted, accepted ++ b.bytesLeft = bytes ∧ s.HasDecoded before accepted

/-- The colours of the frames that the bytes complete. -/
def colorsOfBytes (bytes : List Byte) : List Color := (feedAll bytes).frames.flatMap frameColors

/-- A bound on the cycles to come in which something happens: the source's items, the stalls, and the colours not yet
emitted of `total`. -/
def Bench.work (total : Nat) (b : Bench) (s : State) : Nat :=
  b.sink.length + b.source.length + (total - (colorsOf s.trace).length)

variable {before : List Color} {bytes : List Byte} {b : Bench} {s t : State}

/-- The emitted and the pending colours are a beginning of all that are to come. -/
theorem Bench.Sends.emitted_pending_prefix (h : b.Sends before bytes s) :
    colorsOf s.trace ++ s.pending <+: before ++ colorsOfBytes bytes := by
  obtain ⟨accepted, rfl, -, hemitted⟩ := h.decoded
  obtain ⟨later, hframes⟩ := feedAll_frames_prefix accepted b.bytesLeft
  rw [hemitted, colorsOfBytes, ← hframes, List.flatMap_append, ← List.append_assoc]
  exact List.prefix_append ..

/-- The emitted colours are a beginning of all that are to come. -/
theorem Bench.Sends.emitted_prefix (h : b.Sends before bytes s) :
    colorsOf s.trace <+: before ++ colorsOfBytes bytes :=
  (List.prefix_append ..).trans h.emitted_pending_prefix

/-- Once the source has nothing left and EMIT is over, all bytes are decoded and all their colours are emitted. -/
theorem Bench.Sends.complete (h : b.Sends before bytes s) (hsource : b.source = []) (hp : s.phase ≠ .emit) :
    (feedAll bytes).decoder = ⟨s.accumulator, s.declared⟩ ∧ colorsOf s.trace = before ++ colorsOfBytes bytes := by
  obtain ⟨accepted, rfl, hdecoder, hemitted⟩ := h.decoded
  rw [State.pending_of_ne_emit hp, List.append_nil] at hemitted
  rw [Bench.bytesLeft, hsource, List.filterMap_nil, List.append_nil]
  exact ⟨hdecoder, hemitted⟩

theorem Bench.Sends.driving_rst (h : b.Sends before bytes s) : (b.driving s).pins.rst = false := by
  rw [Bench.driving_pins, Bench.pins_rst h.noReset]

/-- A bench cycle goes on with the sending. -/
theorem Bench.Sends.after_cycle (h : b.Sends before bytes s) (hstep : step (b.driving s) = .next t) :
    (b.advance (b.driving s).byteTransfer).Sends before bytes t := by
  obtain ⟨accepted, hbytes, hdecoded⟩ := h.decoded
  have hinv := b.driving_inv h.inv
  have hrst := h.driving_rst
  obtain ⟨-, -, es, -, htrace, -⟩ := step_next_records hstep
  exact
    { inv := stepKeepsTheInvariant _ t hinv hstep
      noReset := by
        rcases b.advance_source (b.driving s).byteTransfer with hsource | hsource <;> rw [hsource]
        · exact h.noReset
        · exact fun hmem => h.noReset (List.mem_of_mem_tail hmem)
      emitted := by
        rw [htrace, colorsOf_append]
        exact h.emitted.trans (List.prefix_append ..)
      decoded := by
        refine ⟨accepted ++ (b.driving s).acceptedNow.toList, ?_, ?_⟩
        · rw [List.append_assoc, ← Bench.bytesLeft_advance, hbytes]
        · exact step_next_hasDecoded hinv hrst ⟨hdecoded.decoder, hdecoded.emitted⟩ hstep }

/-- During EMIT a sink without a schedule takes a colour (R179). -/
theorem Bench.Sends.colors_grow (h : b.Sends before bytes s) (hp : s.phase = .emit) (hsink : b.sink = [])
    (hstep : step (b.driving s) = .next t) : (colorsOf s.trace).length < (colorsOf t.trace).length := by
  have hrst := h.driving_rst
  have hready : (b.driving s).pins.pxReady = true := by rw [Bench.driving_pins, Bench.pins_pxReady, hsink]; rfl
  obtain ⟨t', hstep', ⟨c, htrace, -⟩, -⟩ := step_of_ready_sink (b.driving_inv h.inv) hp hrst hready
  cases hstep.symm.trans hstep'
  rw [htrace, colorsOf_append, List.length_append]
  exact Nat.lt_add_of_pos_right Nat.one_pos

/-- Outside EMIT the block accepts what the source offers, so that the source goes on to its next item (R178). -/
theorem Bench.Sends.source_advances (h : b.Sends before bytes s) (hp : s.phase ≠ .emit) :
    (b.advance (b.driving s).byteTransfer).source = b.source.tail := by
  have hinReady : (b.driving s).inReady = true := by
    rw [State.inReady, h.driving_rst, Bench.driving_phase]
    cases hphase : s.phase with
    | awaitLen | awaitPay => rfl
    | emit => exact absurd hphase hp
    | reserved => exact absurd hphase h.inv.phase_ne_reserved
  rw [State.byteTransfer, hinReady, Bool.and_true, Bench.driving_pins]
  obtain ⟨source, sink⟩ := b
  cases source with
  | nil => rfl
  | cons item rest => cases item <;> rfl

/-- Each cycle lowers the work left, if there is any: a stall is over, or a colour is taken, or the source goes on. -/
theorem Bench.Sends.work_step (h : b.Sends before bytes s) (hstep : step (b.driving s) = .next t) :
    (b.advance (b.driving s).byteTransfer).work (before ++ colorsOfBytes bytes).length t ≤
      b.work (before ++ colorsOfBytes bytes).length s - 1 := by
  have hbound := (h.after_cycle hstep).emitted_prefix.length_le
  obtain ⟨-, -, es, -, htrace, -⟩ := step_next_records hstep
  have hcolors : (colorsOf s.trace).length ≤ (colorsOf t.trace).length := by
    rw [htrace, colorsOf_append, List.length_append]
    exact Nat.le_add_right ..
  have hsource : (b.advance (b.driving s).byteTransfer).source.length ≤ b.source.length := by
    rcases b.advance_source (b.driving s).byteTransfer with hsource | hsource <;> rw [hsource]
    rw [List.length_tail]
    exact Nat.sub_le ..
  rw [Bench.work, Bench.work, Bench.advance_sink, List.length_tail]
  by_cases hstall : b.sink = []
  · rw [hstall, List.length_nil]
    by_cases hp : s.phase = .emit
    · have hgrow := h.colors_grow hp hstall hstep
      omega
    · rw [h.source_advances hp, List.length_tail]
      by_cases hempty : b.source = []
      · obtain ⟨-, hall⟩ := h.complete hempty hp
        rw [hempty, ← hall, List.length_nil]
        omega
      · have hpos := List.length_pos_of_ne_nil hempty
        omega
  · have hpos := List.length_pos_of_ne_nil hstall
    omega

/-- Any number of bench cycles goes on with the sending, and lowers the work left by as many. -/
theorem Bench.Sends.after_run (h : b.Sends before bytes s) (n : Nat) : ∃ b' t, benchRun n b s = .next (b', t) ∧
    b'.Sends before bytes t ∧
    b'.work (before ++ colorsOfBytes bytes).length t ≤ b.work (before ++ colorsOfBytes bytes).length s - n := by
  induction n generalizing b s with
  | zero => exact ⟨b, s, rfl, h, Nat.le_refl _⟩
  | succ n ih =>
    obtain ⟨u, hstep, hbench⟩ := benchStep_next_of_inv h.inv
    have hwork := h.work_step hstep
    obtain ⟨b', t, hrun, hsends, hwork'⟩ := ih (h.after_cycle hstep)
    exact ⟨b', t, by rw [benchRun, hbench]; exact hrun, hsends, by omega⟩

/-- With no work left the source has nothing left and EMIT is over. -/
theorem Bench.Sends.done (h : b.Sends before bytes s)
    (hwork : b.work (before ++ colorsOfBytes bytes).length s = 0) : b.source = [] ∧ s.phase ≠ .emit := by
  rw [Bench.work] at hwork
  have hle := h.emitted_pending_prefix.length_le
  rw [List.length_append (as := colorsOf s.trace)] at hle
  refine ⟨List.length_eq_zero_iff.1 (by omega), fun hp => h.inv.pending_ne_nil hp (List.length_eq_zero_iff.1 ?_)⟩
  omega

end Sys2Proof.Machine
end

section
/-! PROOFS. Sending the message of a list of pixels (41_pixel.md rule R148). -/

namespace Sys2Proof.Machine

variable {before : List Color} {ps : List Pixel} {b : Bench} {s t : State}

/-- A decoder without a Declared Length, outside EMIT, is in AWAIT_LEN. -/
theorem State.Inv.phase_of_not_declared (hinv : s.Inv) (hp : s.phase ≠ .emit) (hnone : s.declared = none) :
    s.phase = .awaitLen := by
  cases hphase : s.phase with
  | awaitLen => rfl
  | awaitPay =>
    obtain ⟨-, hawait⟩ := (State.inv_awaitPay hphase).1 hinv
    rw [State.declared_of_present hawait.declValid] at hnone
    cases hnone
  | emit => exact absurd hphase hp
  | reserved => exact absurd hphase hinv.phase_ne_reserved

/-- A source that offers the message's bytes in order, with idle cycles anywhere, has those bytes to send and does not
reset the block. -/
theorem bytesLeft_of_filter {source : List SourceItem} {bytes : List Byte} (sink : List Bool)
    (h : source.filter (fun item => item ≠ .idle) = bytes.map .byte) :
    (⟨source, sink⟩ : Bench).bytesLeft = bytes ∧ SourceItem.reset ∉ source := by
  constructor
  · calc source.filterMap SourceItem.byte?
        = (source.filter (fun item => item ≠ .idle)).filterMap SourceItem.byte? := by
          rw [List.filterMap_filter]
          refine congrFun (congrArg List.filterMap (funext fun item => ?_)) source
          cases item <;> rfl
      _ = bytes := by
          rw [h, List.filterMap_map]
          exact List.filterMap_some ..
  · intro hmem
    have hmem' : SourceItem.reset ∈ bytes.map .byte := h ▸ List.mem_filter.2 ⟨hmem, rfl⟩
    simp at hmem'

/-- A block that awaits a header's first byte is about to decode the message. -/
theorem Bench.sends_of_awaitLen {bytes : List Byte} (hinv : s.Inv) (hp : s.phase = .awaitLen) (hacc : s.accLen = 0)
    (hbytes : b.bytesLeft = bytes) (hreset : SourceItem.reset ∉ b.source) :
    b.Sends (colorsOf s.trace) bytes s := by
  obtain ⟨-, hawait⟩ := (State.inv_awaitLen hp).1 hinv
  exact ⟨hinv, hreset, List.prefix_rfl, [], hbytes, State.hasDecoded_nil (by simp [hp]) hacc hawait.declValid⟩

/-- The end of the message: exactly its pixels' colours are emitted, and the block awaits a header's first byte. -/
theorem Bench.Sends.pixels_complete (h : b.Sends before (pixelMessage ps) s) (hlen : ps.length ≤ 21845)
    (hsource : b.source = []) (hp : s.phase ≠ .emit) :
    colorsOf s.trace = before ++ ps.map color ∧ s.phase = .awaitLen ∧ s.accLen = 0 ∧ s.declValid = false := by
  obtain ⟨hinitial, hmap⟩ := feedAll_pixelMessage hlen
  obtain ⟨hdecoder, hcolors⟩ := h.complete hsource hp
  rw [colorsOfBytes, hmap] at hcolors
  obtain ⟨hacc, hdecl⟩ := Decoder.mk.inj (hinitial.symm.trans hdecoder)
  have hphase := h.inv.phase_of_not_declared hp hdecl.symm
  obtain ⟨-, hawait⟩ := (State.inv_awaitLen hphase).1 h.inv
  have hacc0 : s.accLen.toNat = 0 := by rw [← State.accumulator_length, ← hacc]; rfl
  exact ⟨hcolors, hphase, BitVec.eq_of_toNat_eq hacc0, hawait.declValid⟩

/-- At every time a beginning of the pixels' colours is emitted. -/
theorem Bench.Sends.pixels_prefix (h : b.Sends before (pixelMessage ps) s) (hlen : ps.length ≤ 21845) :
    ∃ m, colorsOf s.trace = before ++ (ps.map color).take m := by
  obtain ⟨-, hmap⟩ := feedAll_pixelMessage hlen
  obtain ⟨emitted, hemitted⟩ := h.emitted
  have hprefix := h.emitted_prefix
  rw [colorsOfBytes, hmap, ← hemitted, List.prefix_append_right_inj] at hprefix
  exact ⟨emitted.length, by rw [← hemitted, ← List.prefix_iff_eq_take.1 hprefix]⟩

/-- The message of no pixels is a header of length 0, after no byte of which a payload is awaited. -/
theorem Bench.Sends.awaitLen_of_no_pixels (h : b.Sends before (pixelMessage []) s) : s.phase = .awaitLen := by
  have hheader : ∀ bytes ∈ (pixelMessage []).inits, (feedAll bytes).decoder.decl = none := by decide
  obtain ⟨accepted, hbytes, hdecoder, -⟩ := h.decoded
  have hnone := hheader accepted ((List.mem_inits ..).2 ⟨_, hbytes⟩)
  rw [hdecoder] at hnone
  refine h.inv.phase_of_not_declared (fun hp => h.inv.pending_ne_nil hp ?_) hnone
  have hprefix := h.emitted_pending_prefix
  obtain ⟨emitted, hemitted⟩ := h.emitted
  rw [← hemitted, List.append_assoc, List.prefix_append_right_inj] at hprefix
  exact (List.append_eq_nil_iff.1 (List.prefix_nil.1 hprefix)).2

/-- The message takes at most a cycle for each item of the source, each stall and each pixel. -/
theorem Bench.work_pixelMessage (hlen : ps.length ≤ 21845) :
    b.work (colorsOf s.trace ++ colorsOfBytes (pixelMessage ps)).length s =
      b.sink.length + b.source.length + ps.length := by
  obtain ⟨-, hmap⟩ := feedAll_pixelMessage hlen
  rw [Bench.work, colorsOfBytes, hmap, List.length_append, List.length_map, Nat.add_sub_cancel_left]

/-- After so many cycles, or more, the message is sent. -/
theorem Bench.pixelMessage_sent {n : Nat} (hlen : ps.length ≤ 21845)
    (h : b.Sends (colorsOf s.trace) (pixelMessage ps) s) (hn : b.sink.length + b.source.length + ps.length ≤ n) :
    ∃ b' t, benchRun n b s = .next (b', t) ∧ b'.source = [] ∧
      colorsOf t.trace = colorsOf s.trace ++ ps.map color ∧ t.phase = .awaitLen ∧ t.accLen = 0 ∧
      t.declValid = false := by
  obtain ⟨b', t, hrun, hsends, hwork⟩ := h.after_run n
  rw [b.work_pixelMessage hlen] at hwork
  obtain ⟨hsource, hp⟩ := hsends.done (by omega)
  exact ⟨b', t, hrun, hsource, hsends.pixels_complete hlen hsource hp⟩

end Sys2Proof.Machine
end

section
/-! PROOFS. The family of 41_pixel.md: pixels, colours, the emission operations and the sending of pixel messages. -/

namespace Sys2Proof.Machine

/-- Settles O27: the three bytes of pixel `i` are within the frame. -/
theorem pixelsAreConsecutiveTriples : Obligations.PixelsAreConsecutiveTriples := by
  refine ⟨pixels_length, fun f i hi => ?_, fun f => (pixels_take f).symm, fun f hshort => ?_⟩
  · have hr : f[3 * i]? = some f[3 * i] := List.getElem?_eq_getElem (by omega)
    have hg : f[3 * i + 1]? = some f[3 * i + 1] := List.getElem?_eq_getElem (by omega)
    have hb : f[3 * i + 2]? = some f[3 * i + 2] := List.getElem?_eq_getElem (by omega)
    exact ⟨_, _, _, hr, hg, hb, pixels_getElem? hr hg hb⟩
  · rw [← List.length_eq_zero_iff, pixels_length, Nat.div_eq_of_lt hshort]

/-- Settles O48, by induction on the stalled cycles: each is one EMIT_WAIT. -/
theorem presentedColorIsStable : Obligations.PresentedColorIsStable := by
  intro ps p rest s hp hinputs hstall hrst
  induction ps generalizing s with
  | nil =>
    have hpins : s.pins = p := s.pins_of_inputs p rest hinputs
    exact ⟨s, rfl, rfl, by simp [State.pxValid, hpins, hrst, hp], rfl, hinputs⟩
  | cons q qs ih =>
    obtain ⟨⟨hq, hready⟩, hstall'⟩ := List.forall_mem_cons.1 hstall
    have hpins : s.pins = q := s.pins_of_inputs q (qs ++ p :: rest) hinputs
    have hstep := step_of_stall hp (hpins ▸ hq) (hpins ▸ hready)
    rw [hinputs, List.cons_append, List.tail_cons] at hstep
    obtain ⟨t, hrun, hcolor, hkept⟩ :=
      ih { s with doneQ := false, inputs := qs ++ p :: rest, cycle := s.cycle + 1 } hp rfl hstall'
    refine ⟨t, ?_, hcolor.trans (State.pxColor_congr hp hp rfl rfl), hkept⟩
    rw [List.length_cons, run, hstep]
    exact hrun

/-- Settles O49: the pending colours are the frame's from `pix_idx` on, and AWAIT_LEN's registers are the
invariant's. -/
theorem readySinkGetsTheWholeFrame : Obligations.ReadySinkGetsTheWholeFrame := by
  intro ps rest s hinv hp hinputs hports hlen
  obtain ⟨-, hemit⟩ := (State.inv_emit hp).1 hinv
  obtain ⟨t, hrun, hinvt, htrace, hphase, hacc, hvalid, hmem, hframe, hrest⟩ :=
    run_of_ready_sink hinv hp hinputs hports (hlen.trans (State.pending_length_of_emit hp).symm)
  obtain ⟨-, hawait⟩ := (State.inv_awaitLen hphase).1 hinvt
  rw [State.pending_of_emit hp] at htrace
  exact ⟨t, hrun, htrace, hphase, hawait.pixIdx, hacc.trans hemit.accLen, hvalid.trans hemit.declValid, hframe,
    fun a => by rw [hmem], hrest⟩

/-- Settles O52: without pauses and stalls each cycle sends a byte or emits a pixel. -/
theorem pixelMessageRoundTrip : Obligations.PixelMessageRoundTrip := by
  intro ps s hlen hinv hp hacc
  have hprogram : Bench.ofProgram [.pixels ps] [] = ⟨(pixelMessage ps).map .byte, []⟩ := by
    rw [Bench.ofProgram, List.flatMap_singleton]
    rfl
  obtain ⟨hbytes, hreset⟩ := bytesLeft_of_filter (bytes := pixelMessage ps) [] (List.filter_eq_self.2 (by simp))
  have hsends : Bench.Sends _ (pixelMessage ps) ⟨(pixelMessage ps).map .byte, []⟩ s :=
    Bench.sends_of_awaitLen hinv hp hacc hbytes hreset
  obtain ⟨b, t, hrun, hsource, hcolors, hphase, hacc', hvalid⟩ :=
    Bench.pixelMessage_sent (n := 2 + 3 * ps.length + ps.length) hlen hsends (by simp [pixelMessage_length])
  exact ⟨b, t, hprogram ▸ hrun, hcolors, hphase, hacc', hvalid, hsource⟩

/-- Settles O53: the sending's invariant gives the beginning emitted so far, and the work left bounds the cycles. -/
theorem pixelMessageSurvivesPausesAndStalls : Obligations.PixelMessageSurvivesPausesAndStalls := by
  intro ps source sink s hlen hinv hp hacc hsource
  obtain ⟨hbytes, hreset⟩ := bytesLeft_of_filter sink hsource
  have hsends : Bench.Sends _ (pixelMessage ps) ⟨source, sink⟩ s :=
    Bench.sends_of_awaitLen hinv hp hacc hbytes hreset
  refine ⟨fun n => ?_, sink.length + source.length + ps.length, fun n hn => Bench.pixelMessage_sent hlen hsends hn⟩
  obtain ⟨b, t, hrun, hsends', -⟩ := hsends.after_run n
  obtain ⟨m, hcolors⟩ := hsends'.pixels_prefix hlen
  exact ⟨b, t, m, hrun, hcolors, fun hnone => Bench.Sends.awaitLen_of_no_pixels (hnone ▸ hsends')⟩

/-- Settles O17: EMIT_WAIT writes `done_q` only. -/
theorem emitWaitOperation : Obligations.EmitWaitOperation := by
  refine ⟨fun dv d h => decode_of_selectOp (selectOp_of_mask 6 (h := h)) [d],
    fun s => ⟨s.withDone false, rfl, ?_⟩⟩
  exact ⟨rfl, rfl, rfl, rfl, rfl, rfl, rfl, rfl, rfl, fun _ => rfl, rfl⟩

/-- Settles O18: the counter's increment does not wrap where the three cells exist. -/
theorem emitPixOperation : Obligations.EmitPixOperation := by
  refine ⟨fun dv d h => decode_of_selectOp (selectOp_of_mask 7 (h := h)) [d], fun s h => ?_, fun s hinv hp => ?_⟩
  · have hsucc : (s.pixIdx + 1).toNat = s.pixIdx.toNat + 1 := toNat_succ_of_lt (show _ < 65535 by omega)
    exact ⟨_, execEmitPix_inside h, rfl, hsucc, rfl, rfl, rfl, rfl, rfl, rfl, fun _ => rfl⟩
  · exact ((State.inv_emit hp).1 hinv).2.presented_written

/-- Settles O19: the block is back in AWAIT_LEN, so that only `rst` keeps `in_ready` at 0. -/
theorem emitLastOperation : Obligations.EmitLastOperation := by
  refine ⟨fun dv d h => decode_of_selectOp (selectOp_of_mask 8 (h := h)) [d], fun s h => ?_⟩
  refine ⟨_, execEmitLast_inside h, rfl, rfl, rfl, rfl, fun hrst => ?_, rfl, rfl, rfl, rfl, fun _ => rfl⟩
  rw [State.inReady, hrst]
  rfl

/-- Settles O26: the word as defined, as a concatenation, as a sum, and its three channels. -/
theorem colorWordIsGreenBlueRed : Obligations.ColorWordIsGreenBlueRed := fun p =>
  ⟨rfl, color_eq_append p, color_eq_add p, color_channels p⟩

/-- Settles O28: the shift is the definition, and it appends a zero byte to the colour word. -/
theorem sinkWordIsShiftedByEight : Obligations.SinkWordIsShiftedByEight := ⟨fun _ => rfl, sinkWord_color⟩

end Sys2Proof.Machine
end

section
/-! PROOFS. What a step answers in a cycle with `rst = 1` (60_exceptions.md rule R174 (a)), in the reserved phase
without reset (rule R171), and that it never refuses (rule R172). -/

namespace Sys2Proof.Machine

/-- A cycle with `rst = 1` runs RESET, in every phase. -/
theorem step_of_rst {s : State} (hrst : s.pins.rst = true) :
    step s = .next (s.resetRegisters.record .reset).endCycle := by
  obtain ⟨hreset, -⟩ := stateAndPortsSelectTheOperation s
  obtain ⟨hnext, -⟩ := stepRunsTheDecodedInstruction s _ _ (hreset hrst) rfl
  exact hnext _ rfl

/-- A cycle with `rst = 0` in the reserved phase runs ILLEGAL. -/
theorem step_of_reserved {s : State} (hp : s.phase = .reserved) (hrst : s.pins.rst = false) :
    step s = .fault (.illegalPhase s.phase.code) := by
  obtain ⟨-, hports⟩ := stateAndPortsSelectTheOperation s
  obtain ⟨-, -, -, -, -, -, -, -, hillegal⟩ := hports hrst
  obtain ⟨-, hfault, -⟩ := stepRunsTheDecodedInstruction s _ _ (hillegal hp) rfl
  exact hfault _ rfl

/-- The bytes of a cycle decode, and the operation they decode to does not refuse. -/
theorem step_ne_refused (s : State) (r : Refusal) : step s ≠ .refused r := by
  obtain ⟨i, rest, hd⟩ := fetch_decodes s
  obtain ⟨hnext, hfault, -⟩ := stepRunsTheDecodedInstruction s i rest hd (by cases i <;> rfl)
  cases hx : exec i s with
  | next t => rw [hnext t hx]; exact nofun
  | fault f => rw [hfault f hx]; exact nofun
  | refused r' => exact absurd hx (exec_ne_refused i s r')

/-- The trace of a cycle with a byte transfer gains that one byte (R11, R34). -/
theorem step_next_bytesOf_of_byteTransfer {s t : State} (hstep : step s = .next t) (hbyte : s.byteTransfer = true) :
    bytesOf t.trace = bytesOf s.trace ++ [s.pins.inData] := by
  obtain ⟨es, htrace, -, hes, -⟩ := cycleEventsFollowTheTransfers s t hstep
  rw [htrace, bytesOf_append]
  rcases hes hbyte with rfl | ⟨n, rfl, -⟩ <;> simp

end Sys2Proof.Machine
end

section
/-! PROOFS. One bench cycle with a byte at the head of the source (60_exceptions.md rule R178). -/

namespace Sys2Proof.Machine

variable {b : Bench} {d : Byte} {rest : List SourceItem}

/-- A bench cycle that goes on is one step of the block, after which the source knows whether its byte was accepted. -/
theorem benchStep_next {b' : Bench} {s t : State} (h : benchStep b s = .next (b', t)) :
    step (b.driving s) = .next t ∧ b' = b.advance (b.driving s).byteTransfer := by
  rw [benchStep] at h
  split at h
  next u hstep => cases h; exact ⟨hstep, rfl⟩
  all_goals cases h

theorem Bench.pins_of_byte (h : b.source = .byte d :: rest) (n : Nat) :
    b.pins n = ⟨false, true, d, b.sink.headD true⟩ := by
  rw [Bench.pins, h]

theorem Bench.advance_source_of_byte (h : b.source = .byte d :: rest) (accepted : Bool) :
    (b.advance accepted).source = if accepted then rest else .byte d :: rest := by
  simp only [Bench.advance, h]

end Sys2Proof.Machine
end

section
/-! PROOFS. The family of 60_exceptions.md: safety, reset, the reserved phase, and the byte source. -/

namespace Sys2Proof.Machine

/-- Settles O22: neither a meaning nor the decoding of a cycle refuses. -/
theorem nothingIsRefused : Obligations.NothingIsRefused := ⟨exec_ne_refused, step_ne_refused⟩

/-- Settles O40: the invariant reads no port, so that it holds with the given values on them too. -/
theorem noInputStopsTheBlock : Obligations.NoInputStopsTheBlock := fun _ _ hinv =>
  ⟨step_next_of_inv (hinv.with_rest ..), step_next_of_inv hinv⟩

/-- Settles O44: both invariants hold along every run, and the first is all that a next state needs. -/
theorem reachableStatesAreSafe : Obligations.ReachableStatesAreSafe := by
  intro s hs
  obtain ⟨hinv, htr⟩ := hs.inv_and_traceInv
  exact ⟨hinv, htr, step_next_of_inv hinv⟩

/-- Settles O51: the offered byte is transferred exactly where the block is ready, which it is outside EMIT. -/
theorem sourceKeepsAByteUntilItIsAccepted : Obligations.SourceKeepsAByteUntilItIsAccepted := by
  intro b b' s t d rest hsource h
  obtain ⟨hstep, rfl⟩ := benchStep_next h
  have hpins : (b.driving s).pins = ⟨false, true, d, b.sink.headD true⟩ := by
    rw [Bench.driving_pins, Bench.pins_of_byte hsource]
  rw [Bench.advance_source_of_byte hsource]
  refine ⟨fun hp => ?emit, fun hp => ?await⟩
  case emit =>
    obtain ⟨hready, hbytes, -⟩ := emitAcceptsNoByte (b.driving s) t hp (by rw [hpins]) hstep
    exact ⟨by simp [State.byteTransfer, hready], hbytes⟩
  case await =>
    have hbyte : (b.driving s).byteTransfer = true := by simp [State.byteTransfer, State.inReady, hpins, hp]
    have hbytes := step_next_bytesOf_of_byteTransfer hstep hbyte
    rw [hpins] at hbytes
    exact ⟨if_pos hbyte, hbytes⟩

/-- Settles O11: the cycle runs RESET, and with `rst = 1` both `in_ready` and `px_valid` are 0. -/
theorem resetOutranksEveryOperation : Obligations.ResetOutranksEveryOperation := by
  intro s hrst
  have hbyte : s.byteTransfer = false := by simp [State.byteTransfer, State.inReady, hrst]
  have hpixel : s.pixelTransfer = false := by simp [State.pixelTransfer, State.pxValid, hrst]
  refine ⟨_, step_of_rst hrst, hbyte, hpixel, rfl, State.accumulator_of_zero rfl, State.declared_of_absent rfl,
    State.pending_of_ne_emit nofun, rfl, rfl, fun _ => rfl, rfl, ?_⟩
  exact sinceReset_append_reset s.trace

/-- Settles O20: the last row of the table, and the one meaning that is a fault. -/
theorem illegalRaisesIllegalPhase : Obligations.IllegalRaisesIllegalPhase := by
  refine ⟨fun dv d h => decode_of_selectOp (selectOp_of_mask 9 (h := h)) [d], fun _ => rfl, fun s hp hrst => ?_⟩
  rw [step_of_reserved hp hrst, hp, Phase.code]

end Sys2Proof.Machine
end

section
/-! PROOFS. The family of 70_reset_and_hazards.md: the operation RESET (rule R200). -/

namespace Sys2Proof.Machine

/-- Registers already at their reset values stay there: several resets act as one (R200). -/
theorem State.resetRegisters_record_resetRegisters (s : State) (e : Event) :
    (s.resetRegisters.record e).resetRegisters = s.resetRegisters.record e := rfl

/-- With `rst = 1` neither handshake's output is up, in any phase (R35, R200). -/
theorem outputs_of_rst {s : State} (hrst : s.pins.rst = true) : s.inReady = false ∧ s.pxValid = false := by
  simp [State.inReady, State.pxValid, hrst]

/-- Settles O10: the first row of the table, the registers by value, and a second RESET that finds them reset. -/
theorem resetOperation : Obligations.ResetOperation := by
  refine ⟨fun dv d h => decode_of_selectOp (selectOp_of_mask 0 (h := h)) [d], fun s => ?values,
    fun s hrst => ?ports, fun s t u ht hu => ?again⟩
  case values =>
    exact ⟨_, rfl, rfl, rfl, rfl, rfl, rfl, rfl, rfl, fun _ => rfl, rfl, State.framing_of_empty (.inl rfl) rfl⟩
  case ports =>
    obtain ⟨hready, hvalid⟩ := outputs_of_rst hrst
    exact ⟨hready, hvalid, _, step_of_rst hrst⟩
  case again =>
    cases ht
    cases hu
    rw [State.resetRegisters_record_resetRegisters]
    rfl

end Sys2Proof.Machine
end
